-- ==== Sys2Proof/Word.lean ====
section
/-! DEFINITION. The words of the block: 16-bit operation words and 8-bit bytes (30_encoding.md R70, 00_scope.md R10). -/

namespace Sys2Proof

/-- An operation word: opcode in bits 15..8, argument in bits 7..0 (30_encoding.md R70). -/
abbrev Word := BitVec 16

/-- A byte: a scan code, a queue slot, a table entry, a character (00_scope.md R10). -/
abbrev Byte := BitVec 8

end Sys2Proof
end

