-- ==== Sys2Proof/Config.lean ====
section
/-! DEFINITION. The implementation parameters of 00_scope.md R8, and two named configurations. -/

namespace Sys2Proof

/-- What a parity failure does to `busy` (00_scope.md R8, 40_framer.md R103, 90_conflicts.md C1). -/
inductive BusyParityPolicy where
  | clear
  | latch
  deriving DecidableEq, Repr

/-- A translation table: 128 entries of 8 bits, indexed by a scan code 0x00 to 0x7F (10_state.md R34). -/
abbrev Table := Vector Byte 128

/-- The parameters of 00_scope.md R8. The spec calls each a configuration argument of a model; State holds one
configuration, and no step changes it (log 3). -/
structure Config where
  /-- `N`, the byte-queue capacity. -/
  capacity : Nat
  /-- `BUSY_PARITY_POLICY`. -/
  busyParityPolicy : BusyParityPolicy
  /-- `LAST_RESET`. -/
  lastReset : Byte
  /-- `BREAK_CODE`. -/
  breakCode : Byte
  /-- `SHIFT_L_CODE`. -/
  shiftLCode : Byte
  /-- `SHIFT_R_CODE`. -/
  shiftRCode : Byte
  /-- `CAPS_CODE`. -/
  capsCode : Byte
  /-- `UNSHIFTED`. -/
  unshifted : Table
  /-- `SHIFTED`. -/
  shifted : Table
  /-- `NOMAP`. -/
  nomap : Byte
  deriving DecidableEq, Repr

/-- The table whose entry at each listed code is the listed character, and `other` everywhere else. -/
def Table.ofList (other : Byte) (entries : List (Nat × Byte)) : Table :=
  ⟨((List.range 128).map fun c => (entries.lookup c).getD other).toArray, by simp⟩

/-- The defaults of 00_scope.md R8. The source pins only entry 0x1C of each table (R9); the other 127 entries are open,
and here they are NOMAP, as 95_test_vectors.md takes them.
DESIGN CHOICE (log 4), unsafe for a claim about this configuration's other entries. BREAK_CODE, SHIFT_R_CODE and
CAPS_CODE are PRESUMED: the spec marks them as general knowledge (D10 to D12; log 3). -/
def Config.default : Config where
  capacity := 20
  busyParityPolicy := .clear
  lastReset := 0x00
  breakCode := 0xF0
  shiftLCode := 0x12
  shiftRCode := 0x59
  capsCode := 0x58
  unshifted := Table.ofList 0x00 [(0x1C, 0x61)]
  shifted := Table.ofList 0x00 [(0x1C, 0x41)]
  nomap := 0x00

/-- One row of the informative profile after 42_decoder.md R158: code, unshifted and shifted character. -/
abbrev ProfileRow := Nat × Byte × Byte

/-- The letters of the informative profile (42_decoder.md, after R158). -/
def profileLetters : List ProfileRow :=
  [(0x1C, 0x61, 0x41), (0x32, 0x62, 0x42), (0x21, 0x63, 0x43), (0x23, 0x64, 0x44), (0x24, 0x65, 0x45),
   (0x2B, 0x66, 0x46), (0x34, 0x67, 0x47), (0x33, 0x68, 0x48), (0x43, 0x69, 0x49), (0x3B, 0x6A, 0x4A)]
  ++ [(0x42, 0x6B, 0x4B), (0x4B, 0x6C, 0x4C), (0x3A, 0x6D, 0x4D), (0x31, 0x6E, 0x4E), (0x44, 0x6F, 0x4F),
   (0x4D, 0x70, 0x50), (0x15, 0x71, 0x51), (0x2D, 0x72, 0x52), (0x1B, 0x73, 0x53), (0x2C, 0x74, 0x54)]
  ++ [(0x3C, 0x75, 0x55), (0x2A, 0x76, 0x56), (0x1D, 0x77, 0x57), (0x22, 0x78, 0x58), (0x35, 0x79, 0x59),
   (0x1A, 0x7A, 0x5A)]

/-- The digits and punctuation of the informative profile (42_decoder.md, after R158). -/
def profileOthers : List ProfileRow :=
  [(0x16, 0x31, 0x21), (0x1E, 0x32, 0x40), (0x26, 0x33, 0x23), (0x25, 0x34, 0x24), (0x2E, 0x35, 0x25),
   (0x36, 0x36, 0x5E), (0x3D, 0x37, 0x26), (0x3E, 0x38, 0x2A), (0x46, 0x39, 0x28), (0x45, 0x30, 0x29)]
  ++ [(0x0E, 0x60, 0x7E), (0x4E, 0x2D, 0x5F), (0x55, 0x3D, 0x2B), (0x54, 0x5B, 0x7B), (0x5B, 0x5D, 0x7D),
   (0x5D, 0x5C, 0x7C), (0x4C, 0x3B, 0x3A), (0x52, 0x27, 0x22), (0x41, 0x2C, 0x3C), (0x49, 0x2E, 0x3E)]
  ++ [(0x4A, 0x2F, 0x3F), (0x29, 0x20, 0x20), (0x5A, 0x0D, 0x0D), (0x66, 0x08, 0x08), (0x0D, 0x09, 0x09)]

/-- `PROFILE_SET2_US`, the informative configuration after 42_decoder.md R158, marked there as general knowledge:
no rule and no definition of this model depends on it. PRESUMED (log 17), safe. -/
def Config.profileSet2Us : Config :=
  { Config.default with
    unshifted := Table.ofList 0x00 ((profileLetters ++ profileOthers).map fun r => (r.1, r.2.1))
    shifted := Table.ofList 0x00 ((profileLetters ++ profileOthers).map fun r => (r.1, r.2.2)) }

end Sys2Proof
end

