-- ==== Sys2Proof/Syntax.lean ====
section
/-! DEFINITION. The eight operations (30_encoding.md R73), who issues them, and the source lines of R77 and R78. -/

namespace Sys2Proof

/-- The operations of the opcode map, one constructor per row of spec/opcode_table.json (30_encoding.md R73).
The operands have exactly the widths of R71 and R72, so every term is a well-formed operation. -/
inductive Instr where
  /-- EDGE d: one framer step with the sampled data bit `d` (F-BIT). -/
  | edge (d : BitVec 1)
  /-- PUSH b: append a byte to the queue (F-BYTE). -/
  | push (b : Byte)
  /-- POP: remove and return the oldest byte. -/
  | pop
  /-- PEEK: return the oldest byte. -/
  | peek
  /-- ISEMPTY: test for an empty queue. -/
  | isempty
  /-- GETKEY: decode at most one character. -/
  | getkey
  /-- ISBUSY: should the consumer wait. -/
  | isbusy
  /-- INIT: reset the block and enable the clock-edge interrupt. -/
  | init
  deriving DecidableEq, Repr

/-- The two agents that issue operations, which are also the two execution contexts: the producer is the interrupt
context, the consumer is ordinary flow (00_scope.md R6, 60_exceptions.md R186). -/
inductive Agent where
  | producer
  | consumer
  deriving DecidableEq, Repr

/-- One entry of the total order of steps (20_memory.md R60): an operation word issued by an agent, or the consumer
going on with a GETKEY whose first phase is done (42_decoder.md R152). -/
inductive Turn where
  | issue (agent : Agent) (word : Word)
  | resume
  deriving DecidableEq, Repr

/-- A source operation as it is written (30_encoding.md R77, R78). Operands are the numbers written; WellFormed says
which are in range. -/
inductive Source where
  | edge (d : Nat)
  | push (b : Nat)
  | pop
  | peek
  | isempty
  | getkey
  | isbusy
  | init
  | frame (b : Nat)
  | frameBadpar (b : Nat)
  | frameBadstop (b : Nat)
  | idle
  | decode
  deriving DecidableEq, Repr

/-- A source line: an optional context tag `P:` or `C:`, and one operation (30_encoding.md R77). -/
structure SourceLine where
  tag : Option Agent
  op : Source
  deriving DecidableEq, Repr

end Sys2Proof
end

