-- ==== Sys2Proof/Decode.lean ====
section
/-! DEFINITION. The decoder, total on all words (30_encoding.md R75), and after it the encoder (R71, R73). -/

namespace Sys2Proof

/-- The two reasons a word is no operation (30_encoding.md R75). -/
inductive DecodeError where
  /-- `RESERVED_OPCODE`: the opcode byte is 0x00 or in 0x09 to 0xFF. -/
  | reservedOpcode
  /-- `NONZERO_MBZ`: a must-be-zero field is not zero. -/
  | nonzeroMbz
  deriving DecidableEq, Repr

/-- What a word decodes to. -/
inductive Decoded where
  | instr (i : Instr)
  | illegal (e : DecodeError)
  deriving DecidableEq, Repr

/-- `w[15:8]` (30_encoding.md R70). -/
def opcodeOf (w : Word) : Byte := w.extractLsb' 8 8

/-- `w[7:0]`, the operand of F-BYTE and the must-be-zero field of F-NONE (30_encoding.md R71). -/
def argumentOf (w : Word) : Byte := w.extractLsb' 0 8

/-- `w[0]`, the operand of F-BIT (30_encoding.md R71, R72). -/
def bitOf (w : Word) : BitVec 1 := w.extractLsb' 0 1

/-- `w[7:1]`, the must-be-zero field of F-BIT (30_encoding.md R71). -/
def bitMbzOf (w : Word) : BitVec 7 := w.extractLsb' 1 7

/-- An F-NONE row: the argument must be zero (30_encoding.md R71, R75). -/
def decodeNone (w : Word) (i : Instr) : Decoded :=
  if argumentOf w = 0#8 then .instr i else .illegal .nonzeroMbz

/-- The decoder: the opcode selects the row of the opcode map (30_encoding.md R73), and the format's must-be-zero
bits are checked (R75). No mode bit changes it (R70). -/
def decode (w : Word) : Decoded :=
  match (opcodeOf w).toNat with
  | 0x01 => if bitMbzOf w = 0#7 then .instr (.edge (bitOf w)) else .illegal .nonzeroMbz
  | 0x02 => .instr (.push (argumentOf w))
  | 0x03 => decodeNone w .pop
  | 0x04 => decodeNone w .peek
  | 0x05 => decodeNone w .isempty
  | 0x06 => decodeNone w .getkey
  | 0x07 => decodeNone w .isbusy
  | 0x08 => decodeNone w .init
  | _ => .illegal .reservedOpcode

/-- The instruction the decoder reads from an opcode-table row of `nbits` bits whose bits are `w`: one length only, 16
bits (30_encoding.md R70). -/
def decodeTableWord (nbits w : Nat) : Option Instr :=
  if nbits ≤ 16 then
    match decode (BitVec.ofNat 16 (w % 2 ^ nbits)) with
    | .instr i => some i
    | .illegal _ => none
  else none

/-- The opcode of an operation (30_encoding.md R73). -/
def opcode : Instr → Byte
  | .edge _ => 0x01#8
  | .push _ => 0x02#8
  | .pop => 0x03#8
  | .peek => 0x04#8
  | .isempty => 0x05#8
  | .getkey => 0x06#8
  | .isbusy => 0x07#8
  | .init => 0x08#8

/-- The argument byte of an operation, must-be-zero bits zero (30_encoding.md R71). -/
def argument : Instr → Byte
  | .edge d => d.setWidth 8
  | .push b => b
  | .pop => 0x00#8
  | .peek => 0x00#8
  | .isempty => 0x00#8
  | .getkey => 0x00#8
  | .isbusy => 0x00#8
  | .init => 0x00#8

/-- The word of an operation: opcode in bits 15..8, argument in bits 7..0 (30_encoding.md R70). -/
def encode (i : Instr) : Word := ((opcode i).setWidth 16 <<< 8) ||| (argument i).setWidth 16

/-- The mask of an operation's row (30_encoding.md R73). -/
def rowMask : Instr → Word
  | .edge _ => 0xFFFE#16
  | .push _ => 0xFF00#16
  | .pop => 0xFFFF#16
  | .peek => 0xFFFF#16
  | .isempty => 0xFFFF#16
  | .getkey => 0xFFFF#16
  | .isbusy => 0xFFFF#16
  | .init => 0xFFFF#16

/-- The match value of an operation's row (30_encoding.md R73). -/
def rowMatch : Instr → Word
  | .edge _ => 0x0100#16
  | .push _ => 0x0200#16
  | .pop => 0x0300#16
  | .peek => 0x0400#16
  | .isempty => 0x0500#16
  | .getkey => 0x0600#16
  | .isbusy => 0x0700#16
  | .init => 0x0800#16

/-- The issuer column of the opcode map (30_encoding.md R73). -/
def issuer : Instr → Agent
  | .edge _ => .producer
  | .push _ => .producer
  | .pop => .consumer
  | .peek => .consumer
  | .isempty => .consumer
  | .getkey => .consumer
  | .isbusy => .consumer
  | .init => .consumer

end Sys2Proof
end

