-- ==== Sys2Proof/Machine/State.lean ====
section
/-! DEFINITION. The state of the block as plain data (10_state.md), the reasons a step can stop, and reset (R200). -/

namespace Sys2Proof.Machine

/-- `fsm_state`, the block's counterpart of a program counter (10_state.md R21). -/
inductive FsmState where
  | awaitStart
  | receivingBits
  | awaitParity
  | awaitStop
  deriving DecidableEq, Repr

/-- `dec_phase` (10_state.md R35). -/
inductive DecPhase where
  | idle
  | afterBreak
  deriving DecidableEq, Repr

/-- The typed result an operation returns (00_scope.md R11, R12). -/
inductive Result where
  /-- No result: EDGE, INIT, and a GETKEY that has not returned yet. -/
  | nothing
  /-- A Boolean: PUSH, ISEMPTY, ISBUSY. -/
  | bool (b : Bool)
  /-- An optional byte or character: POP, PEEK, GETKEY. -/
  | byte (v : Option Byte)
  deriving DecidableEq, Repr

/-- The tag of a model-level event (60_exceptions.md R181). -/
inductive EventTag where
  | noise
  | parityFail
  | stopFail
  | suppressed
  | queueFull
  | accepted
  deriving DecidableEq, Repr

/-- A model-level event: its tag and the value recorded, if any (60_exceptions.md R181). -/
structure Event where
  tag : EventTag
  value : Option Byte
  deriving DecidableEq, Repr

/-- Why a step stops with a fault. The block itself raises no exception (60_exceptions.md R180). -/
inductive Fault where
  /-- An access to a queue slot outside 0..N-1, which does not exist (10_state.md R27). Raised by POP, PEEK, GETKEY
  and PUSH (also inside EDGE). Only in states outside the invariant of Safety.lean, which no run reaches (log 6). Safe. -/
  | noSuchSlot (slot : Nat)
  deriving DecidableEq, Repr

/-- Why a step is refused (60_exceptions.md R182). A refusal ends the run: it is the refusal mark that no later step
clears (log 7). -/
inductive Refusal where
  /-- An operation of the table that has no meaning yet. No operation of this model. Safe. -/
  | notModelled (mnemonic : String)
  /-- `RESERVED_OPCODE`: the word issued has no opcode of the map. Raised by the fetch (30_encoding.md R75). Safe. -/
  | reservedOpcode
  /-- `NONZERO_MBZ`: the word issued has a must-be-zero field that is not zero. Raised by the fetch (R75). Safe. -/
  | nonzeroMbz
  /-- `WRONG_CONTEXT`: a legal operation issued by the wrong agent. Raised by every meaning (R76, 60_exceptions.md
  R186). Safe. -/
  | wrongContext
  deriving DecidableEq, Repr

/-- The queue storage: slot numbers and bytes, slots strictly rising, no entry equal to `unlistedByte`. -/
abbrev Memory := List Host.Cell

/-- What a slot that is not listed holds. The spec leaves every slot a draw at power-on and no operation can observe
one (10_state.md R27, R41). DESIGN CHOICE (log 5), unsafe. -/
def unlistedByte : Byte := 0x00

/-- The state of the block (10_state.md), the configuration it runs with (00_scope.md R8), the context of the step
being taken (60_exceptions.md R186), what a caller and a test see of the steps (00_scope.md R12, 60_exceptions.md
R181), and the steps still to come (20_memory.md R60). -/
structure State where
  /-- The parameters, the two tables among them (00_scope.md R8, 10_state.md R34). Constant. -/
  cfg : Config
  /-- `fsm_state` (R21). -/
  fsmState : FsmState
  /-- `bit_index` (R22). -/
  bitIndex : BitVec 3
  /-- `accumulator` (R23). -/
  accumulator : Byte
  /-- `parity_ones_count` (R24). -/
  parityOnesCount : BitVec 4
  /-- `busy` (R25). -/
  busy : Bool
  /-- `last_accepted` (R26). -/
  lastAccepted : Byte
  /-- `second_last_accepted` (R26). -/
  secondLastAccepted : Byte
  /-- `storage` (R27). -/
  storage : Memory
  /-- `head`, the next slot to read, an index of `indexWidth` bits, held as its value (R28, log 15). -/
  head : Nat
  /-- `tail`, the last slot written, as wide as `head`, held as its value (R29, log 15). -/
  tail : Nat
  /-- `empty` (R30). -/
  empty : Bool
  /-- `shift_held` (R32). -/
  shiftHeld : Bool
  /-- `caps_lock_on` (R33). -/
  capsLockOn : Bool
  /-- `dec_phase` (R35). -/
  decPhase : DecPhase
  /-- `edge_irq_en` (R36). -/
  edgeIrqEn : Bool
  /-- The context the step runs in; ordinary flow between steps (60_exceptions.md R186, R188). -/
  context : Agent
  /-- What the last operation returned. The model's own field (log 11). -/
  result : Result
  /-- The events recorded, oldest first (60_exceptions.md R181). -/
  trace : List Event
  /-- The steps still to come, in their total order. The model's own field (log 1). -/
  agenda : List Turn
  deriving DecidableEq, Repr

/-- The power-on state under a configuration (70_reset_and_hazards.md R200): the post-INIT values, but for the edge
interrupt, which is disabled, and the storage, which lists nothing (log 5). -/
def State.powerOn (c : Config) : State where
  cfg := c
  fsmState := .awaitStart
  bitIndex := 0
  accumulator := 0
  parityOnesCount := 0
  busy := false
  lastAccepted := c.lastReset
  secondLastAccepted := c.lastReset
  storage := []
  head := 0
  tail := c.capacity - 1
  empty := true
  shiftHeld := false
  capsLockOn := false
  decPhase := .idle
  edgeIrqEn := false
  context := .consumer
  result := .nothing
  trace := []
  agenda := []

/-- The machine right after power-on, with the defaults of 00_scope.md R8. -/
def State.reset : State := State.powerOn Config.default

end Sys2Proof.Machine
end

