-- ==== Sys2Proof/Machine/Flags.lean ====
section
/-! DEFINITION. The derived quantities and tests of the rules: counts, full, parity, suppression, busy, selection. -/

namespace Sys2Proof.Machine

/-- The number of 1 bits of a byte (30_encoding.md R78). -/
def popcount (b : Byte) : Nat := ((List.range 8).map fun k => (b.getLsbD k).toNat).sum

/-- `fsm_state` as the two-bit number of 10_state.md R21. -/
def FsmState.code : FsmState → BitVec 2
  | .awaitStart => 0
  | .receivingBits => 1
  | .awaitParity => 2
  | .awaitStop => 3

/-- The code of an event's tag (60_exceptions.md R181). -/
def EventTag.code : EventTag → Nat
  | .noise => 0
  | .parityFail => 1
  | .stopFail => 2
  | .suppressed => 3
  | .queueFull => 4
  | .accepted => 5

/-- The width of `head` and of `tail`: ceil(log2 N) bits (10_state.md R28, R29). -/
def indexWidth (c : Config) : Nat := if c.capacity ≤ 1 then 0 else Nat.log2 (c.capacity - 1) + 1

/-- A value as an index register holds it: its lowest `indexWidth` bits (10_state.md R28, R29). -/
def indexOf (c : Config) (i : Nat) : Nat := i % 2 ^ indexWidth c

/-- `head` and `tail` hold values of their width (10_state.md R28, R29). -/
def State.indicesFit (s : State) : Bool :=
  decide (s.head < 2 ^ indexWidth s.cfg) && decide (s.tail < 2 ^ indexWidth s.cfg)

/-- `next(i) = (i + 1) mod N` (41_queue.md, 20_memory.md R54). -/
def State.next (s : State) (i : Nat) : Nat := (i + 1) % s.cfg.capacity

/-- `count`, the number of unread bytes (10_state.md R31). -/
def State.count (s : State) : Nat :=
  if s.empty then 0 else (((s.tail : Int) - s.head) % s.cfg.capacity).toNat + 1

/-- `full` (10_state.md R31). -/
def State.full (s : State) : Bool := !s.empty && s.next s.tail == s.head

/-- Odd parity holds: the sampled parity bit differs from `parity_ones_count[0]` (40_framer.md R103). -/
def State.parityHolds (s : State) (d : BitVec 1) : Bool := d != s.parityOnesCount.extractLsb' 0 1

/-- `busy` after a parity failure, by BUSY_PARITY_POLICY (40_framer.md R103). -/
def State.busyAfterParityFail (s : State) : Bool :=
  match s.cfg.busyParityPolicy with
  | .clear => false
  | .latch => s.busy

/-- `SUPPRESS(v)`: the byte equals both of the last two accepted bytes (40_framer.md R105). -/
def State.suppress (s : State) (v : Byte) : Bool := v == s.lastAccepted && v == s.secondLastAccepted

/-- What ISBUSY reports: `busy or empty` (43_facade.md R170). -/
def State.busyOrEmpty (s : State) : Bool := s.busy || s.empty

/-- A byte is one of the two shift codes (42_decoder.md R151). -/
def isShiftCode (c : Config) (k : Byte) : Bool := k == c.shiftLCode || k == c.shiftRCode

/-- The shifted table is selected: `shift_held xor caps_lock_on` (42_decoder.md R153). -/
def State.selectsShifted (s : State) : Bool := xor s.shiftHeld s.capsLockOn

end Sys2Proof.Machine
end

