-- ==== Sys2Proof/Machine/Operands.lean ====
section
/-! DEFINITION. The operand forms as the meanings use them, and results written as words (00_scope.md R12). -/

namespace Sys2Proof.Machine

/-- `accumulator[i] <- d`: only bit `i` changes (40_framer.md R102). -/
def setBit (v : Byte) (i : BitVec 3) (d : BitVec 1) : Byte :=
  (v &&& ~~~(1#8 <<< i.toNat)) ||| (d.setWidth 8 <<< i.toNat)

/-- The word form of a result: TRUE 0x001, FALSE 0x000, SOME v 0x100 | v, NONE 0x000; an operation with no result has
none (00_scope.md R12). -/
def Result.word : Result → Option (BitVec 9)
  | .nothing => none
  | .bool true => some 0x001
  | .bool false => some 0x000
  | .byte (some v) => some (0x100#9 ||| v.setWidth 9)
  | .byte none => some 0x000

/-- A read of a translation table at a code below 0x80 (20_memory.md R55). -/
def Table.read (t : Table) (c : Byte) (h : c.toNat < 128) : Byte := t[c.toNat]

/-- The character GETKEY looks a make code up as: the entry of the selected table, NONE for NOMAP and for a code of
0x80 or more (42_decoder.md R151, R153, R155, R156). -/
def State.lookup (s : State) (c : Byte) : Option Byte :=
  if h : c.toNat < 128 then
    let ch := if s.selectsShifted then Table.read s.cfg.shifted c h else Table.read s.cfg.unshifted c h
    if ch = s.cfg.nomap then none else some ch
  else none

end Sys2Proof.Machine
end

