-- ==== Sys2Proof/Machine/Ops.lean ====
section
/-! DEFINITION. The operations the meanings share: slots, queue, context, interrupt entry and return, results, events. -/

namespace Sys2Proof.Machine

/-- What slot `a` of a memory holds. -/
def Memory.read : Memory → Nat → Byte
  | [], _ => unlistedByte
  | (k, v) :: m, a => if k = a then v else Memory.read m a

/-- A cell in front of a memory, unless it holds what an unlisted slot holds. -/
def Memory.cons (a : Nat) (v : Byte) (m : Memory) : Memory := if v = unlistedByte then m else (a, v) :: m

/-- The memory with `v` at slot `a`, in canonical form. -/
def Memory.write : Memory → Nat → Byte → Memory
  | [], a, v => Memory.cons a v []
  | (k, x) :: m, a, v =>
    if a < k then Memory.cons a v ((k, x) :: m)
    else if a = k then Memory.cons a v m
    else (k, x) :: Memory.write m a v

/-- Every listed slot lies above `lo`, slots strictly rise, and no entry holds what an unlisted slot holds. -/
def Memory.wfFrom (lo : Nat) : Memory → Bool
  | [] => true
  | (k, v) :: m => decide (lo ≤ k) && v != unlistedByte && Memory.wfFrom (k + 1) m

/-- The canonical form of a memory. -/
def Memory.wf (m : Memory) : Bool := Memory.wfFrom 0 m

/-- Every listed slot is one of the `n` slots that exist. -/
def Memory.within (m : Memory) (n : Nat) : Bool := m.all fun cell => decide (cell.1 < n)

/-- `MemRead(i, 1)` of 00_scope.md R11: only slots 0..N-1 exist (10_state.md R27). -/
def State.readSlot (s : State) (i : Nat) : Except Fault Byte :=
  if i < s.cfg.capacity then .ok (Memory.read s.storage i) else .error (.noSuchSlot i)

/-- `MemWrite(i, 1, v)` of 00_scope.md R11: only slots 0..N-1 exist (10_state.md R27). -/
def State.writeSlot (s : State) (i : Nat) (v : Byte) : Except Fault State :=
  if i < s.cfg.capacity then .ok { s with storage := Memory.write s.storage i v } else .error (.noSuchSlot i)

/-- The unread bytes, oldest first (10_state.md R40 (c)). -/
def State.unread (s : State) : List Byte :=
  (List.range s.count).map fun k => Memory.read s.storage ((s.head + k) % s.cfg.capacity)

/-- `head <- i`: a register of `indexWidth` bits is written (10_state.md R28). -/
def State.setHead (i : Nat) (s : State) : State := { s with head := indexOf s.cfg i }

/-- `tail <- i`: a register of `indexWidth` bits is written (10_state.md R29). -/
def State.setTail (i : Nat) (s : State) : State := { s with tail := indexOf s.cfg i }

/-- PUSH as the rule gives it, its result and the state after it (41_queue.md R131). -/
def pushByte (b : Byte) (s : State) : Except Fault (Bool × State) :=
  if s.full then .ok (false, s)
  else
    match s.writeSlot (s.next s.tail) b with
    | .error f => .error f
    | .ok t => .ok (true, { t.setTail (s.next s.tail) with empty := false })

/-- POP as the rule gives it, its result and the state after it (41_queue.md R132). -/
def popByte (s : State) : Except Fault (Option Byte × State) :=
  if s.empty then .ok (none, s)
  else
    match s.readSlot s.head with
    | .error f => .error f
    | .ok b => .ok (some b, { s.setHead (s.next s.head) with empty := s.head == s.tail })

/-- PEEK as the rule gives it (41_queue.md R133). -/
def peekByte (s : State) : Except Fault (Option Byte) :=
  if s.empty then .ok none
  else
    match s.readSlot s.head with
    | .error f => .error f
    | .ok b => .ok (some b)

/-- `return r` (00_scope.md R11). -/
def State.returning (r : Result) (s : State) : State := { s with result := r }

/-- Record one event of an EDGE step (60_exceptions.md R181). -/
def State.record (tag : EventTag) (value : Option Byte) (s : State) : State :=
  { s with trace := s.trace ++ [⟨tag, value⟩] }

/-- Enter the context of a step's agent. For the producer this is the clock-edge interrupt's entry: the handler
acknowledges the edge, which touches no block state, samples the data line, which is the operand of EDGE, and saves no
state (60_exceptions.md R184, R186). -/
def State.enter (a : Agent) (s : State) : State := { s with context := a }

/-- Leave the context: the handler returns to the interrupted ordinary flow, and nothing is restored, since nothing
was saved (60_exceptions.md R188). -/
def State.leave (s : State) : State := { s with context := .consumer }

/-- The issue of an operation: WRONG_CONTEXT when the wrong agent issues it (60_exceptions.md R182, R186), else what
the operation does. -/
def issued (i : Instr) (s : State) (effect : Except Fault State) : Host.Outcome State Fault Refusal :=
  if s.context = issuer i then
    match effect with
    | .ok t => .next t
    | .error f => .fault f
  else .refused .wrongContext

end Sys2Proof.Machine
end

