-- ==== Sys2Proof/Machine/Decoder.lean ====
section
/-! DEFINITION. The scan-code decoder: GETKEY and its two phases (42_decoder.md). -/

namespace Sys2Proof.Machine

/-- The decode of the first byte `c`, already popped (42_decoder.md R151): the break marker ends phase 1, then a shift
make, a caps make, and the table lookup, in this order (00_scope.md R9). -/
def decodeMake (c : Byte) (s : State) : State :=
  if c = s.cfg.breakCode then { s with decPhase := .afterBreak }.returning .nothing
  else if isShiftCode s.cfg c then { s with shiftHeld := true }.returning (.byte none)
  else if c = s.cfg.capsCode then { s with capsLockOn := !s.capsLockOn }.returning (.byte none)
  else s.returning (.byte (s.lookup c))

/-- Phase 1 of GETKEY: pop the first byte and decode it (42_decoder.md R151, R152). -/
def getkeyPhaseOne (s : State) : Except Fault State :=
  match popByte s with
  | .error f => .error f
  | .ok (none, t) => .ok (t.returning (.byte none))
  | .ok (some c, t) => .ok (decodeMake c t)

/-- The end of phase 2 with what the second pop returned: only the break of a shift key has an effect, and an empty
queue discards the marker (42_decoder.md R151, R154). -/
def decodeBreak (r : Option Byte) (s : State) : State :=
  { s with
    decPhase := .idle
    shiftHeld := s.shiftHeld && !(r.any (isShiftCode s.cfg)) }.returning (.byte none)

/-- Phase 2 of GETKEY: pop the code of the released key (42_decoder.md R151, R152). -/
def getkeyPhaseTwo (s : State) : Except Fault State :=
  match popByte s with
  | .error f => .error f
  | .ok (r, t) => .ok (decodeBreak r t)

/-- GETKEY: decode at most one character (42_decoder.md R150). One call is one atomic step, or two when the first byte
is the break marker; the second goes on where `dec_phase` says (R152). -/
def execGetkey (s : State) : Host.Outcome State Fault Refusal :=
  issued .getkey s <|
    match s.decPhase with
    | .idle => getkeyPhaseOne s
    | .afterBreak => getkeyPhaseTwo s

end Sys2Proof.Machine
end

