-- ==== Sys2Proof/Machine/Facade.lean ====
section
/-! DEFINITION. The facade: ISBUSY and INIT (43_facade.md). -/

namespace Sys2Proof.Machine

/-- ISBUSY: `busy or empty`, one snapshot (43_facade.md R170). -/
def execIsbusy (s : State) : Host.Outcome State Fault Refusal :=
  issued .isbusy s (.ok (s.returning (.bool s.busyOrEmpty)))

/-- The block's state reset by INIT, the edge interrupt enabled last; `storage` is not written (43_facade.md R171,
70_reset_and_hazards.md R200). The pin capability's primitives touch no state of the block (log 10). -/
def initialized (s : State) : State :=
  { (s.setHead 0).setTail (s.cfg.capacity - 1) with
    fsmState := .awaitStart
    bitIndex := 0
    accumulator := 0
    parityOnesCount := 0
    busy := false
    lastAccepted := s.cfg.lastReset
    secondLastAccepted := s.cfg.lastReset
    empty := true
    shiftHeld := false
    capsLockOn := false
    decPhase := .idle
    edgeIrqEn := true }

/-- INIT: reset the block and enable the clock-edge interrupt (43_facade.md R171). -/
def execInit (s : State) : Host.Outcome State Fault Refusal :=
  issued .init s (.ok ((initialized s).returning .nothing))

end Sys2Proof.Machine
end

