-- ==== Sys2Proof/Machine/Framer.lean ====
section
/-! DEFINITION. The framer: EDGE, one definition per state of the frame state machine (40_framer.md). -/

namespace Sys2Proof.Machine

/-- EDGE in AWAIT_START: a 0 starts a frame, a 1 is idle-line noise (40_framer.md R101). -/
def edgeAwaitStart (d : BitVec 1) (s : State) : State :=
  if d = 0#1 then
    { s with accumulator := 0, parityOnesCount := 0, bitIndex := 0, busy := true, fsmState := .receivingBits }
  else s.record .noise none

/-- EDGE in RECEIVING_BITS: store one data bit (40_framer.md R102). The 3-bit increment wraps from 7 to 0
(90_conflicts.md C5). -/
def edgeReceivingBits (d : BitVec 1) (s : State) : State :=
  { s with
    accumulator := setBit s.accumulator s.bitIndex d
    parityOnesCount := if d = 1#1 then s.parityOnesCount + 1 else s.parityOnesCount
    bitIndex := if s.bitIndex = 7#3 then 0 else s.bitIndex + 1
    fsmState := if s.bitIndex = 7#3 then .awaitParity else .receivingBits }

/-- EDGE in AWAIT_PARITY: validate odd parity (40_framer.md R103). -/
def edgeAwaitParity (d : BitVec 1) (s : State) : State :=
  if s.parityHolds d then { s with fsmState := .awaitStop }
  else
    { s with fsmState := .awaitStart, busy := s.busyAfterParityFail }.record .parityFail (some s.accumulator)

/-- The accepted byte of AWAIT_STOP: the history is written before the push and whatever it returns, and the push's
result is discarded (40_framer.md R104 corner case (2), 90_conflicts.md C9). -/
def acceptByte (s : State) : Except Fault State :=
  match pushByte s.accumulator { s with secondLastAccepted := s.lastAccepted, lastAccepted := s.accumulator } with
  | .error f => .error f
  | .ok (true, t) => .ok (t.record .accepted (some s.accumulator))
  | .ok (false, t) => .ok (t.record .queueFull (some s.accumulator))

/-- What AWAIT_STOP does before it returns to AWAIT_START: check the stop bit, suppress a repeat, or accept the byte
(40_framer.md R104, R105). -/
def checkStop (d : BitVec 1) (s : State) : Except Fault State :=
  if d = 1#1 then
    if s.suppress s.accumulator then .ok (s.record .suppressed (some s.accumulator)) else acceptByte s
  else .ok (s.record .stopFail (some s.accumulator))

/-- EDGE in AWAIT_STOP: in every case the framer returns to AWAIT_START and `busy` is cleared (40_framer.md R104). -/
def edgeAwaitStop (d : BitVec 1) (s : State) : Except Fault State :=
  match checkStop d s with
  | .error f => .error f
  | .ok t => .ok { t with fsmState := .awaitStart, busy := false }

/-- One framer step: what EDGE does depends on `fsm_state` (40_framer.md R100). -/
def framerStep (d : BitVec 1) (s : State) : Except Fault State :=
  match s.fsmState with
  | .awaitStart => .ok (edgeAwaitStart d s)
  | .receivingBits => .ok (edgeReceivingBits d s)
  | .awaitParity => .ok (edgeAwaitParity d s)
  | .awaitStop => edgeAwaitStop d s

/-- EDGE returns nothing (40_framer.md R100). -/
def edgeServiced (d : BitVec 1) (s : State) : Except Fault State :=
  match framerStep d s with
  | .error f => .error f
  | .ok t => .ok (t.returning .nothing)

/-- EDGE d: one framer step (40_framer.md R100). While `edge_irq_en` is FALSE no EDGE step happens (10_state.md R36):
the edge is not serviced and nothing changes (log 9). -/
def execEdge (d : BitVec 1) (s : State) : Host.Outcome State Fault Refusal :=
  issued (.edge d) s (if s.edgeIrqEn then edgeServiced d s else .ok s)

end Sys2Proof.Machine
end

