-- ==== Sys2Proof/Machine/Queue.lean ====
section
/-! DEFINITION. The byte queue: PUSH, POP, PEEK and ISEMPTY (41_queue.md). -/

namespace Sys2Proof.Machine

/-- PUSH b: append a byte, Boolean result (41_queue.md R131). -/
def execPush (b : Byte) (s : State) : Host.Outcome State Fault Refusal :=
  issued (.push b) s <|
    match pushByte b s with
    | .error f => .error f
    | .ok (r, t) => .ok (t.returning (.bool r))

/-- POP: remove and return the oldest byte (41_queue.md R132). -/
def execPop (s : State) : Host.Outcome State Fault Refusal :=
  issued .pop s <|
    match popByte s with
    | .error f => .error f
    | .ok (r, t) => .ok (t.returning (.byte r))

/-- PEEK: return the oldest byte without removing it (41_queue.md R133). -/
def execPeek (s : State) : Host.Outcome State Fault Refusal :=
  issued .peek s <|
    match peekByte s with
    | .error f => .error f
    | .ok r => .ok (s.returning (.byte r))

/-- ISEMPTY: return `empty` (41_queue.md R134). -/
def execIsempty (s : State) : Host.Outcome State Fault Refusal :=
  issued .isempty s (.ok (s.returning (.bool s.empty)))

end Sys2Proof.Machine
end

