-- ==== Sys2Proof/Machine/Dispatch.lean ====
section
/-! DEFINITION. One arm per operation of the opcode map (30_encoding.md R73). -/

namespace Sys2Proof.Machine

/-- What an operation does in a state whose `context` is the agent that issues it. -/
def exec (i : Instr) (s : State) : Host.Outcome State Fault Refusal :=
  match i with
  | .edge d => Sys2Proof.Machine.execEdge d s
  | .push b => Sys2Proof.Machine.execPush b s
  | .pop => Sys2Proof.Machine.execPop s
  | .peek => Sys2Proof.Machine.execPeek s
  | .isempty => Sys2Proof.Machine.execIsempty s
  | .getkey => Sys2Proof.Machine.execGetkey s
  | .isbusy => Sys2Proof.Machine.execIsbusy s
  | .init => Sys2Proof.Machine.execInit s

end Sys2Proof.Machine
end

