-- ==== Sys2Proof/Machine/Fetch.lean ====
section
/-! DEFINITION. What the next step is: the head of the agenda, or a GETKEY that goes on (20_memory.md R60). -/

namespace Sys2Proof.Machine

/-- What the next step does: run an operation as an agent, refuse a word, or nothing. -/
inductive Fetched where
  | run (i : Instr) (s : State)
  | illegal (e : DecodeError)
  | idle (s : State)
  deriving DecidableEq, Repr

/-- A GETKEY whose first phase is done goes on, as the consumer's next step (42_decoder.md R152). -/
def resumeGetkey (s : State) : Fetched := .run .getkey (s.enter .consumer)

/-- A word issued by an agent: decode it and enter the agent's context (30_encoding.md R75, 60_exceptions.md R184). -/
def fetchIssue (a : Agent) (w : Word) (s : State) : Fetched :=
  match decode w with
  | .instr i => .run i (s.enter a)
  | .illegal e => .illegal e

/-- The next step of the total order. While `dec_phase` is AFTER_BREAK the consumer issues nothing else: its next turn
is phase 2 of the GETKEY in progress, and the operation it would issue stays on the agenda (10_state.md R35,
42_decoder.md R152; log 13). With nothing left to issue, a GETKEY in progress finishes (20_memory.md R65) and otherwise
nothing happens (log 2). -/
def fetch (s : State) : Fetched :=
  match s.agenda with
  | [] => if s.decPhase = .afterBreak then resumeGetkey s else .idle s
  | .resume :: rest =>
    if s.decPhase = .afterBreak then resumeGetkey { s with agenda := rest } else .idle { s with agenda := rest }
  | .issue a w :: rest =>
    if a = .consumer ∧ s.decPhase = .afterBreak then resumeGetkey s else fetchIssue a w { s with agenda := rest }

/-- The refusal of an illegal word (60_exceptions.md R182). -/
def refusalOf : DecodeError → Refusal
  | .reservedOpcode => .reservedOpcode
  | .nonzeroMbz => .nonzeroMbz

/-- The end of a step: the context is left for ordinary flow (60_exceptions.md R188). -/
def leaving : Host.Outcome State Fault Refusal → Host.Outcome State Fault Refusal
  | .next t => .next t.leave
  | .fault f => .fault f
  | .refused r => .refused r

/-- A word put in front of the agenda, issued by its implied issuer (30_encoding.md R73, R77), with what its fetch
needs: an EDGE needs the edge interrupt enabled (10_state.md R36), and a consumer's word needs no GETKEY in progress
(R35). A word that is no operation is issued by the consumer. (log 14) -/
def placeWord (w : Word) (s : State) : State :=
  match decode w with
  | .instr (.edge _) => { s with edgeIrqEn := true, agenda := .issue .producer w :: s.agenda }
  | .instr (.push _) => { s with agenda := .issue .producer w :: s.agenda }
  | _ => { s with decPhase := .idle, agenda := .issue .consumer w :: s.agenda }

end Sys2Proof.Machine
end

