-- ==== Sys2Proof/Machine/Step.lean ====
section
/-! DEFINITION. One step of the total order of steps (20_memory.md R60). -/

namespace Sys2Proof.Machine

/-- One atomic step: an EDGE, a PUSH, a consumer operation or one phase of a GETKEY (20_memory.md R60). -/
def step (s : State) : Host.Outcome State Fault Refusal :=
  match fetch s with
  | .run i t => leaving (exec i t)
  | .illegal e => .refused (refusalOf e)
  | .idle t => .next t

/-- The word of an opcode-table row, as the next thing issued (log 14). -/
def State.withFetchWord (s : State) (nbits w : Nat) : State := placeWord (BitVec.ofNat 16 (w % 2 ^ nbits)) s

end Sys2Proof.Machine
end

