-- ==== Sys2Proof/WellFormed.lean ====
section
/-! DEFINITION. What makes a configuration (00_scope.md R9) and a source line (30_encoding.md R77) well-formed.
An Instr needs no check: its operands have exactly the widths of 30_encoding.md R71. -/

namespace Sys2Proof

/-- The configuration is well-formed (00_scope.md R9). Every table entry is an 8-bit value by its type. The special
codes need not be distinct. -/
def Config.wf (c : Config) : Bool :=
  decide (1 ≤ c.capacity) && c.unshifted[0x1C] == 0x61#8 && c.shifted[0x1C] == 0x41#8

/-- The operand of a source operation is in the range its format admits: EDGE takes the digit 0 or 1, PUSH and the
frames take one byte (30_encoding.md R71, R77). -/
def Source.wf : Source → Bool
  | .edge d => decide (d < 2)
  | .push b => decide (b < 256)
  | .pop => true
  | .peek => true
  | .isempty => true
  | .getkey => true
  | .isbusy => true
  | .init => true
  | .frame b => decide (b < 256)
  | .frameBadpar b => decide (b < 256)
  | .frameBadstop b => decide (b < 256)
  | .idle => true
  | .decode => true

end Sys2Proof
end

