-- ==== Sys2Proof/Machine/Assembler.lean ====
section
/-! DEFINITION. Source lines to turns: the pseudo-operations and the implied issuer (30_encoding.md R77, R78). -/

namespace Sys2Proof.Machine

/-- `p(b) = 1 - (popcount(b) mod 2)`, the odd-parity bit (30_encoding.md R78). -/
def oddParityBit (b : Byte) : BitVec 1 := BitVec.ofNat 1 (1 - popcount b % 2)

/-- The EDGE operations of the eight data bits, least significant bit first (30_encoding.md R78). -/
def dataEdges (b : Byte) : List Instr := (List.range 8).map fun k => .edge (b.extractLsb' k 1)

/-- The 11 EDGE operations of a frame with data `b`, parity bit `p` and stop bit `stop` (30_encoding.md R78). -/
def frameWith (b : Byte) (p stop : BitVec 1) : List Instr := .edge 0 :: dataEdges b ++ [.edge p, .edge stop]

/-- `FRAME b` (30_encoding.md R78). -/
def frame (b : Byte) : List Instr := frameWith b (oddParityBit b) 1

/-- `FRAME_BADPAR b` (30_encoding.md R78). -/
def frameBadpar (b : Byte) : List Instr := frameWith b (1 - oddParityBit b) 1

/-- `FRAME_BADSTOP b` (30_encoding.md R78). -/
def frameBadstop (b : Byte) : List Instr := frameWith b (oddParityBit b) 0

/-- The operations a well-formed source operation stands for (30_encoding.md R77, R78). -/
def expand : Source → List Instr
  | .edge d => [.edge (BitVec.ofNat 1 d)]
  | .push b => [.push (BitVec.ofNat 8 b)]
  | .pop => [.pop]
  | .peek => [.peek]
  | .isempty => [.isempty]
  | .getkey => [.getkey]
  | .isbusy => [.isbusy]
  | .init => [.init]
  | .frame b => frame (BitVec.ofNat 8 b)
  | .frameBadpar b => frameBadpar (BitVec.ofNat 8 b)
  | .frameBadstop b => frameBadstop (BitVec.ofNat 8 b)
  | .idle => [.edge 1]
  | .decode => [.getkey]

/-- The turns of one operation: the issue of its word by the tagged agent, or by the implied issuer (30_encoding.md
R77). After a GETKEY its second phase follows at once, if there is one: a program line is a whole operation (log 13). -/
def turnsOf (tag : Option Agent) (i : Instr) : List Turn :=
  match i with
  | .getkey => [.issue (tag.getD (issuer i)) (encode i), .resume]
  | i => [.issue (tag.getD (issuer i)) (encode i)]

/-- A source line as turns of the agenda; none when its operand is out of range (30_encoding.md R77). -/
def assemble (l : SourceLine) : Option (List Turn) :=
  if l.op.wf then some ((expand l.op).flatMap (turnsOf l.tag)) else none

end Sys2Proof.Machine
end

