-- ==== Sys2Proof/Safety.lean ====
section
/-! DEFINITION. What claims are stated in: the invariants of 10_state.md R39 and R40, and runs of issued operations. -/

namespace Sys2Proof.Machine

/-- The number of 1 bits among the lowest `n` bits of a byte. -/
def onesBelow (b : Byte) (n : Nat) : Nat := ((List.range n).map fun k => (b.getLsbD k).toNat).sum

/-- The framer invariants (10_state.md R39). -/
structure FramerInv (s : State) : Prop where
  /-- R39 (a). -/
  index_zero : s.fsmState ≠ .receivingBits → s.bitIndex = 0
  /-- R39 (b), the count. -/
  receiving_ones : s.fsmState = .receivingBits → s.parityOnesCount.toNat = onesBelow s.accumulator s.bitIndex.toNat
  /-- R39 (b), the bits not received yet. -/
  receiving_rest : s.fsmState = .receivingBits → ∀ k, s.bitIndex.toNat ≤ k → s.accumulator.getLsbD k = false
  /-- R39 (c). -/
  received_ones : s.fsmState = .awaitParity ∨ s.fsmState = .awaitStop →
    s.parityOnesCount.toNat = onesBelow s.accumulator 8
  /-- R39 (d), both policies: `busy` is 1 in a frame. -/
  busy_in_frame : s.fsmState ≠ .awaitStart → s.busy = true
  /-- R39 (d), CLEAR: `busy` is 1 only in a frame. -/
  busy_clear : s.cfg.busyParityPolicy = .clear → s.busy = true → s.fsmState ≠ .awaitStart

/-- The queue invariants: the ranges of the indices (10_state.md R28, R29) and R40 (b); R40 (a) follows from them, and so
do the widths of the indices (Laws/Queue.lean, `QueueInv.indicesFit`). -/
structure QueueInv (s : State) : Prop where
  head_lt : s.head < s.cfg.capacity
  tail_lt : s.tail < s.cfg.capacity
  /-- R40 (b). -/
  empty_head : s.empty = true → s.head = (s.tail + 1) % s.cfg.capacity

/-- The storage is in canonical form and lists only slots that exist (10_state.md R27). -/
structure StorageInv (s : State) : Prop where
  wf : Memory.wf s.storage = true
  within : Memory.within s.storage s.cfg.capacity = true

/-- The invariant of the block, whatever context a step runs in. -/
structure BlockInv (s : State) : Prop where
  cfg : s.cfg.wf = true
  framer : FramerInv s
  queue : QueueInv s
  storage : StorageInv s

/-- The invariant between steps: that of the block, and ordinary flow is the context (60_exceptions.md R188). -/
structure Inv (s : State) : Prop where
  block : BlockInv s
  context : s.context = .consumer

/-- One operation issued by its own agent, as a step of the total order runs it. -/
def execIssued (i : Instr) (s : State) : Host.Outcome State Fault Refusal := leaving (exec i (s.enter (issuer i)))

/-- Operations issued one after the other, each by its own agent, with the result each returned. It ends with none
where one of them stops. -/
def runIssued : List Instr → State → Option (List (Instr × Result) × State)
  | [], s => some ([], s)
  | i :: rest, s =>
    match execIssued i s with
    | .next t => (runIssued rest t).map fun r => ((i, t.result) :: r.1, r.2)
    | .fault _ => none
    | .refused _ => none

/-- An EDGE operation. -/
def isEdge : Instr → Bool
  | .edge _ => true
  | .push _ => false
  | .pop => false
  | .peek => false
  | .isempty => false
  | .getkey => false
  | .isbusy => false
  | .init => false

/-- The event of a frame whose byte the framer hands to PUSH (40_framer.md R104, R107). -/
def Event.isPush (e : Event) : Bool := e.tag == .accepted || e.tag == .queueFull

/-- The bytes whose PUSH returned TRUE, in order. -/
def pushedBytes (log : List (Instr × Result)) : List Byte :=
  log.filterMap fun x =>
    match x with
    | (.push b, .bool true) => some b
    | _ => none

/-- The bytes POP returned as `SOME b`, in order. -/
def poppedBytes (log : List (Instr × Result)) : List Byte :=
  log.filterMap fun x =>
    match x with
    | (.pop, .byte (some b)) => some b
    | _ => none

end Sys2Proof.Machine
end

