-- ==== Sys2Proof/Certificates/Slice0/Obligations.lean ====
section
/-! DEFINITION. The statements for the provers. -/

open Sys2Proof Sys2Proof.Machine

/-! ## Encoding -/

/-- Words written out from the opcode map, the worked encodings and the vectors X1 to X14 decode as the spec says
(30_encoding.md sections 1 to 4). The encoding is the spec's own decision D2, D3. -/
def Obligations.SpecWordsDecodeAsWritten : Prop :=
  decode 0x0100#16 = .instr (.edge 0) ∧ decode 0x0101#16 = .instr (.edge 1) ∧
  decode 0x0200#16 = .instr (.push 0x00) ∧ decode 0x02FF#16 = .instr (.push 0xFF) ∧
  decode 0x02F0#16 = .instr (.push 0xF0) ∧
  decode 0x0300#16 = .instr .pop ∧ decode 0x0400#16 = .instr .peek ∧ decode 0x0500#16 = .instr .isempty ∧
  decode 0x0600#16 = .instr .getkey ∧ decode 0x0700#16 = .instr .isbusy ∧ decode 0x0800#16 = .instr .init ∧
  decode 0x0102#16 = .illegal .nonzeroMbz ∧ decode 0x01FF#16 = .illegal .nonzeroMbz ∧
  decode 0x0301#16 = .illegal .nonzeroMbz ∧ decode 0x0680#16 = .illegal .nonzeroMbz ∧
  decode 0x0000#16 = .illegal .reservedOpcode ∧ decode 0x0001#16 = .illegal .reservedOpcode ∧
  decode 0x0900#16 = .illegal .reservedOpcode ∧ decode 0xFFFF#16 = .illegal .reservedOpcode

/-- Decode and encode agree, for every operation and every word: a word decodes to an operation exactly when it is
that operation's encoding (30_encoding.md sections 1 and 2, the spec's own decision D2). -/
def Obligations.DecodeAndEncodeAgree : Prop :=
  ∀ (w : Word) (i : Instr), decode w = .instr i ↔ w = encode i

/-- A word selects a row when `(w & mask) = match`, and it is then the row of what it decodes to; no word selects the
rows of two mnemonics (30_encoding.md section 2, the spec's own decision D2). -/
def Obligations.MaskAndMatchSelectTheDecodedRow : Prop :=
  ∀ (w : Word) (i : Instr),
    w &&& rowMask i = rowMatch i ↔ ∃ j : Instr, decode w = .instr j ∧ opcode j = opcode i

/-- The decoder is total and gives one of two reasons for a word that is no operation: RESERVED_OPCODE for an opcode
0x00 or 0x09 to 0xFF, NONZERO_MBZ for an F-BIT row with `w[7:1]` not zero or an F-NONE row with `w[7:0]` not zero
(30_encoding.md section 3, the spec's own decision D3). -/
def Obligations.DecoderGivesTheReasonsOfRefusal : Prop :=
  ∀ w : Word,
    (decode w = .illegal .reservedOpcode ↔ w.toNat / 256 = 0 ∨ 9 ≤ w.toNat / 256) ∧
    (decode w = .illegal .nonzeroMbz ↔
      (w.toNat / 256 = 1 ∧ w.toNat % 256 / 2 ≠ 0) ∨
      (3 ≤ w.toNat / 256 ∧ w.toNat / 256 ≤ 8 ∧ w.toNat % 256 ≠ 0)) ∧
    ((∃ i, decode w = .instr i) ∨ decode w = .illegal .reservedOpcode ∨ decode w = .illegal .nonzeroMbz)

/-- Exactly 264 of the 65536 words are legal: 2 for EDGE, 256 for PUSH, and one for each F-NONE row (30_encoding.md
section 3, the spec's own decision D3). -/
def Obligations.LegalWordsAreThe264 : Prop :=
  ∃ legal : List Word,
    legal.Nodup ∧ legal.length = 264 ∧
    (∀ w : Word, w ∈ legal ↔ ∃ i, decode w = .instr i) ∧
    (legal.filter fun w => opcodeOf w == 0x01#8).length = 2 ∧
    (legal.filter fun w => opcodeOf w == 0x02#8).length = 256 ∧
    (∀ o ∈ [0x03#8, 0x04#8, 0x05#8, 0x06#8, 0x07#8, 0x08#8], (legal.filter fun w => opcodeOf w == o).length = 1)

/-- A frame is eleven EDGE words: the start bit 0, the data bits least significant first, a parity bit that makes the
number of 1 bits of data and parity odd, and the stop bit 1; the malformed frames differ from it in the parity bit or
the stop bit only (30_encoding.md R78, derived there from the framer's rules; the words are the spec's own decision
D2). -/
def Obligations.FrameIsElevenWordsOfOddParity : Prop :=
  ∀ b : Byte,
    let data := (List.range 8).map fun k => 0x0100#16 + BitVec.ofNat 16 (b.getLsbD k).toNat
    ∃ p : BitVec 1, (popcount b + p.toNat) % 2 = 1 ∧
      (frame b).map encode = 0x0100#16 :: data ++ [0x0100#16 + p.setWidth 16, 0x0101#16] ∧
      (frameBadpar b).map encode = 0x0100#16 :: data ++ [0x0101#16 - p.setWidth 16, 0x0101#16] ∧
      (frameBadstop b).map encode = 0x0100#16 :: data ++ [0x0100#16 + p.setWidth 16, 0x0100#16]

/-! ## Steps, contexts and refusals -/

/-- A step runs the decoded operation: where the head of the agenda is a word issued by an agent, and the agent is not
the consumer in the middle of a GETKEY, the step is `exec` of what the word decodes to, in the issuer's context, with
the turn taken off the agenda, and ordinary flow is the context after it. The agenda is the model's (log 1). -/
def Obligations.StepRunsTheDecodedOperation : Prop :=
  ∀ (s : State) (a : Agent) (w : Word) (rest : List Turn) (i : Instr),
    s.agenda = .issue a w :: rest → ¬ (a = .consumer ∧ s.decPhase = .afterBreak) → decode w = .instr i →
    step s = leaving (exec i { s with agenda := rest, context := a })

/-- Between the two phases of a GETKEY the consumer issues nothing else: its turn, whatever it would issue, is phase 2,
and a producer's turn runs the producer's word (42_decoder.md R152, the spec's own decision D16; the agenda is the
model's, log 1, log 13). -/
def Obligations.ConsumerTurnInTheBreakWindowIsPhaseTwo : Prop :=
  ∀ (s : State), s.decPhase = .afterBreak →
    (∀ w rest, s.agenda = .issue .consumer w :: rest →
      step s = leaving (exec .getkey { s with context := .consumer })) ∧
    (∀ rest, s.agenda = .resume :: rest →
      step s = leaving (exec .getkey { s with agenda := rest, context := .consumer })) ∧
    (s.agenda = [] → step s = leaving (exec .getkey { s with context := .consumer })) ∧
    (∀ w rest i, s.agenda = .issue .producer w :: rest → decode w = .instr i →
      step s = leaving (exec i { s with agenda := rest, context := .producer }))

/-- With nothing issued and no GETKEY in progress, nothing happens (00_scope.md section 4: the state changes only in
operations; the agenda is the model's, log 2). -/
def Obligations.NothingIssuedNothingHappens : Prop :=
  ∀ s : State, s.decPhase = .idle →
    (s.agenda = [] → step s = .next s) ∧
    (∀ rest, s.agenda = .resume :: rest → step s = .next { s with agenda := rest })

/-- A step is refused for exactly one of three reasons, in this order: the word has a reserved opcode, a must-be-zero
field is not zero, or the wrong agent issued a legal word (60_exceptions.md R182, the spec's own decision D3). -/
def Obligations.StepIsRefusedForThreeReasonsOnly : Prop :=
  ∀ (s : State) (r : Refusal),
    step s = .refused r ↔
      ∃ a w rest, s.agenda = .issue a w :: rest ∧ ¬ (a = .consumer ∧ s.decPhase = .afterBreak) ∧
        ((decode w = .illegal .reservedOpcode ∧ r = .reservedOpcode) ∨
         (decode w = .illegal .nonzeroMbz ∧ r = .nonzeroMbz) ∨
         (∃ i, decode w = .instr i ∧ a ≠ issuer i ∧ r = .wrongContext))

/-- An operation is refused exactly when the other agent issues it: EDGE and PUSH belong to the producer, the rest to
the consumer (60_exceptions.md R186, the spec's own decision D26). -/
def Obligations.WrongAgentIsRefused : Prop :=
  ∀ s : State,
    (∀ d, exec (.edge d) s = .refused .wrongContext ↔ s.context = .consumer) ∧
    (∀ b, exec (.push b) s = .refused .wrongContext ↔ s.context = .consumer) ∧
    (exec .pop s = .refused .wrongContext ↔ s.context = .producer) ∧
    (exec .peek s = .refused .wrongContext ↔ s.context = .producer) ∧
    (exec .isempty s = .refused .wrongContext ↔ s.context = .producer) ∧
    (exec .getkey s = .refused .wrongContext ↔ s.context = .producer) ∧
    (exec .isbusy s = .refused .wrongContext ↔ s.context = .producer) ∧
    (exec .init s = .refused .wrongContext ↔ s.context = .producer)

/-! ## The framer -/

/-- EDGE in AWAIT_START (40_framer.md R101): a 0 starts a frame and a 1 changes no state and is the event NOISE. EDGE
returns nothing. The events are the spec's own decision D30, and the trace and the result field are the model's form of
them (log 11). -/
def Obligations.EdgeInAwaitStartDetectsTheStartBit : Prop :=
  ∀ s : State, s.context = .producer → s.edgeIrqEn = true → s.fsmState = .awaitStart →
    exec (.edge 0) s =
      .next { s with
        accumulator := 0x00, parityOnesCount := 0, bitIndex := 0, busy := true, fsmState := .receivingBits,
        result := .nothing } ∧
    exec (.edge 1) s = .next { s with trace := s.trace ++ [⟨.noise, none⟩], result := .nothing } ∧
    encode (.edge 0) = 0x0100#16 ∧ encode (.edge 1) = 0x0101#16

/-- EDGE in RECEIVING_BITS (40_framer.md R102): the bit goes to `accumulator[bit_index]` and to no other bit, a 1 is
counted, and `bit_index` goes on, from 7 to 0 with the move to AWAIT_PARITY. Nothing else changes. -/
def Obligations.EdgeInReceivingBitsStoresOneBit : Prop :=
  ∀ (s : State) (d : BitVec 1), s.context = .producer → s.edgeIrqEn = true → s.fsmState = .receivingBits →
    ∃ t, exec (.edge d) s = .next t ∧
      (∀ k, k < 8 → t.accumulator.getLsbD k =
        if k = s.bitIndex.toNat then decide (d = 1#1) else s.accumulator.getLsbD k) ∧
      t.parityOnesCount = (if d = 1#1 then s.parityOnesCount + 1 else s.parityOnesCount) ∧
      (s.bitIndex = 7#3 → t.bitIndex = 0#3 ∧ t.fsmState = .awaitParity) ∧
      (s.bitIndex ≠ 7#3 → t.bitIndex = s.bitIndex + 1 ∧ t.fsmState = .receivingBits) ∧
      t = { s with
        accumulator := t.accumulator, parityOnesCount := t.parityOnesCount, bitIndex := t.bitIndex,
        fsmState := t.fsmState, result := .nothing }

/-- EDGE in AWAIT_PARITY (40_framer.md R103): with odd parity the framer goes on to AWAIT_STOP, and otherwise it aborts
the frame, and BUSY_PARITY_POLICY decides `busy`, by the spec's own decision D7 (the trace: log 11). -/
def Obligations.EdgeInAwaitParityValidatesOddParity : Prop :=
  ∀ (s : State) (d : BitVec 1), s.context = .producer → s.edgeIrqEn = true → s.fsmState = .awaitParity →
    (d.toNat ≠ s.parityOnesCount.toNat % 2 →
      exec (.edge d) s = .next { s with fsmState := .awaitStop, result := .nothing }) ∧
    (d.toNat = s.parityOnesCount.toNat % 2 → s.cfg.busyParityPolicy = .clear →
      exec (.edge d) s =
        .next { s with
          fsmState := .awaitStart, busy := false, trace := s.trace ++ [⟨.parityFail, some s.accumulator⟩],
          result := .nothing }) ∧
    (d.toNat = s.parityOnesCount.toNat % 2 → s.cfg.busyParityPolicy = .latch →
      exec (.edge d) s =
        .next { s with
          fsmState := .awaitStart, trace := s.trace ++ [⟨.parityFail, some s.accumulator⟩], result := .nothing })

/-- EDGE in AWAIT_STOP (40_framer.md R104, R105): a 0 drops the frame; a 1 with a byte equal to both history bytes
drops the byte; otherwise the history moves, and the byte is appended to the queue unless it is full. In every case
the framer returns to AWAIT_START with `busy` cleared. The stored slot is the one PUSH writes, and no other slot
changes. The history moved on a full queue (90_conflicts.md C9), the pointer discipline (D6) and the events (D30) are the
spec's own decisions (log 18), and the trace is the model's form of the events (log 11). -/
def Obligations.EdgeInAwaitStopAcceptsOrDropsTheByte : Prop :=
  ∀ s : State, s.context = .producer → s.edgeIrqEn = true → s.fsmState = .awaitStop → 1 ≤ s.cfg.capacity →
    Memory.wf s.storage = true →
    (exec (.edge 0) s =
      .next { s with
        fsmState := .awaitStart, busy := false, trace := s.trace ++ [⟨.stopFail, some s.accumulator⟩],
        result := .nothing }) ∧
    (s.accumulator = s.lastAccepted ∧ s.accumulator = s.secondLastAccepted →
      exec (.edge 1) s =
        .next { s with
          fsmState := .awaitStart, busy := false, trace := s.trace ++ [⟨.suppressed, some s.accumulator⟩],
          result := .nothing }) ∧
    (¬ (s.accumulator = s.lastAccepted ∧ s.accumulator = s.secondLastAccepted) →
      (s.empty = false ∧ (s.tail + 1) % s.cfg.capacity = s.head →
        exec (.edge 1) s =
          .next { s with
            secondLastAccepted := s.lastAccepted, lastAccepted := s.accumulator, fsmState := .awaitStart, busy := false,
            trace := s.trace ++ [⟨.queueFull, some s.accumulator⟩], result := .nothing }) ∧
      (¬ (s.empty = false ∧ (s.tail + 1) % s.cfg.capacity = s.head) →
        ∃ t, exec (.edge 1) s = .next t ∧
          Memory.read t.storage ((s.tail + 1) % s.cfg.capacity) = s.accumulator ∧
          (∀ a, a ≠ (s.tail + 1) % s.cfg.capacity → Memory.read t.storage a = Memory.read s.storage a) ∧
          t = { s with
            storage := t.storage, tail := (s.tail + 1) % s.cfg.capacity, empty := false,
            secondLastAccepted := s.lastAccepted, lastAccepted := s.accumulator, fsmState := .awaitStart, busy := false,
            trace := s.trace ++ [⟨.accepted, some s.accumulator⟩], result := .nothing }))

/-- While the edge interrupt is disabled no EDGE step happens: an EDGE of the producer changes nothing (10_state.md
R36, the spec's own decision D19; the edge is lost, log 9). -/
def Obligations.EdgeWhileDisabledChangesNothing : Prop :=
  ∀ (s : State) (d : BitVec 1), s.context = .producer → s.edgeIrqEn = false → exec (.edge d) s = .next s

/-- `fsm_state` moves only along the transition table, by an EDGE, or to AWAIT_START by INIT (10_state.md R21,
40_framer.md section 3, derived there). -/
def Obligations.FramerStateMovesOnlyAlongItsTable : Prop :=
  ∀ (i : Instr) (s t : State), exec i s = .next t → t.fsmState ≠ s.fsmState →
    (i = .init ∧ t.fsmState = .awaitStart) ∨
    (∃ d, i = .edge d ∧ s.edgeIrqEn = true ∧
      ((s.fsmState = .awaitStart ∧ d = 0#1 ∧ t.fsmState = .receivingBits) ∨
       (s.fsmState = .receivingBits ∧ s.bitIndex = 7#3 ∧ t.fsmState = .awaitParity) ∨
       (s.fsmState = .awaitParity ∧ d.toNat ≠ s.parityOnesCount.toNat % 2 ∧ t.fsmState = .awaitStop) ∨
       (s.fsmState = .awaitParity ∧ d.toNat = s.parityOnesCount.toNat % 2 ∧ t.fsmState = .awaitStart) ∨
       (s.fsmState = .awaitStop ∧ t.fsmState = .awaitStart)))

/-- The frame law (40_framer.md section 3, derived there): the 11 edges of a well-formed frame of `b`, with any
consumer operations but INIT before, between and after them, end in AWAIT_START with `busy` cleared; exactly one event
is recorded, and it says that `b` was handed to PUSH, with the history moved, unless `b` equals both history bytes, and
then that it was suppressed, with the history unchanged. -/
def Obligations.WellFormedFrameIsReceivedWhateverTheConsumerDoes : Prop :=
  ∀ (s : State) (b : Byte) (ops : List Instr),
    Inv s → s.edgeIrqEn = true → s.fsmState = .awaitStart →
    ops.filter isEdge = frame b →
    (∀ i ∈ ops, isEdge i = false → issuer i = .consumer ∧ i ≠ .init) →
    ∃ log t e, runIssued ops s = some (log, t) ∧ t.fsmState = .awaitStart ∧ t.busy = false ∧
      t.trace = s.trace ++ [e] ∧ e.value = some b ∧
      (¬ (b = s.lastAccepted ∧ b = s.secondLastAccepted) →
        (e.tag = .accepted ∨ e.tag = .queueFull) ∧ t.lastAccepted = b ∧ t.secondLastAccepted = s.lastAccepted) ∧
      (b = s.lastAccepted ∧ b = s.secondLastAccepted →
        e.tag = .suppressed ∧ t.lastAccepted = s.lastAccepted ∧ t.secondLastAccepted = s.secondLastAccepted)

/-- What a well-formed frame does to the queue (40_framer.md section 3 and 41_queue.md section "Derived laws", derived
there): its byte joins the unread bytes at the end, unless it is suppressed or the queue holds N bytes, and then the
unread bytes are as before. The modifier latch, the decoder's phase and the configuration are as before. -/
def Obligations.WellFormedFrameQueuesItsByte : Prop :=
  ∀ (s : State) (b : Byte), Inv s → s.edgeIrqEn = true → s.fsmState = .awaitStart →
    ∃ log t, runIssued (frame b) s = some (log, t) ∧
      t.unread = (if (b = s.lastAccepted ∧ b = s.secondLastAccepted) ∨ s.unread.length = s.cfg.capacity then s.unread
        else s.unread ++ [b]) ∧
      t.shiftHeld = s.shiftHeld ∧ t.capsLockOn = s.capsLockOn ∧ t.decPhase = s.decPhase ∧ t.cfg = s.cfg ∧
      t.head = s.head

/-- A frame with the wrong parity bit, or with a stop bit of 0, queues nothing and leaves the history (40_framer.md
section 3, derived there). After a parity failure `busy` is as BUSY_PARITY_POLICY says, and the stop bit is idle-line
noise; after a stop failure `busy` is cleared. -/
def Obligations.MalformedFramesQueueNothing : Prop :=
  ∀ (s : State) (b : Byte), Inv s → s.edgeIrqEn = true → s.fsmState = .awaitStart →
    (∃ log t, runIssued (frameBadpar b) s = some (log, t) ∧ t.fsmState = .awaitStart ∧
      t.busy = decide (s.cfg.busyParityPolicy = .latch) ∧
      t.trace = s.trace ++ [⟨.parityFail, some b⟩, ⟨.noise, none⟩] ∧ t.storage = s.storage ∧ t.unread = s.unread ∧
      t.lastAccepted = s.lastAccepted ∧ t.secondLastAccepted = s.secondLastAccepted) ∧
    (∃ log t, runIssued (frameBadstop b) s = some (log, t) ∧ t.fsmState = .awaitStart ∧ t.busy = false ∧
      t.trace = s.trace ++ [⟨.stopFail, some b⟩] ∧ t.storage = s.storage ∧ t.unread = s.unread ∧
      t.lastAccepted = s.lastAccepted ∧ t.secondLastAccepted = s.secondLastAccepted)

/-- The suppression laws (40_framer.md section 3, derived there): of `k` well-formed frames of one byte in a row,
exactly min(k, 2), min(k, 1) or none are handed to PUSH, by how many of the history bytes equal it. -/
def Obligations.AtMostTwoRepeatsAreHandedToPush : Prop :=
  ∀ (s : State) (v : Byte) (k : Nat), Inv s → s.edgeIrqEn = true → s.fsmState = .awaitStart →
    ∃ log t es, runIssued (List.replicate k (frame v)).flatten s = some (log, t) ∧ t.trace = s.trace ++ es ∧
      es.length = k ∧
      (s.lastAccepted ≠ v → (es.filter Event.isPush).length = min k 2) ∧
      (s.lastAccepted = v → s.secondLastAccepted ≠ v → (es.filter Event.isPush).length = min k 1) ∧
      (s.lastAccepted = v → s.secondLastAccepted = v → es.filter Event.isPush = [])

/-- The busy-flag gap (70_reset_and_hazards.md R207): under LATCH, once `busy` is 1, only an EDGE in AWAIT_STOP or INIT
clears it, and while it is 1 ISBUSY answers TRUE, whatever is queued. -/
def Obligations.LatchedBusyLastsUntilAStopBitOrInit : Prop :=
  ∀ s : State, s.cfg.busyParityPolicy = .latch → s.busy = true →
    (∀ (i : Instr) (t : State), exec i s = .next t → t.busy = false →
      i = .init ∨ (s.fsmState = .awaitStop ∧ ∃ d, i = .edge d)) ∧
    (s.context = .consumer → exec .isbusy s = .next { s with result := .bool true })

/-- EDGE neither reads nor writes the modifier latch, `dec_phase`, the tables, the special codes and NOMAP
(40_framer.md R110, derived there): with any other values in them it does the same to the rest and leaves them. -/
def Obligations.EdgeIgnoresTheConsumersState : Prop :=
  ∀ (s t : State) (d : BitVec 1) (c : Config) (sh cl : Bool) (p : DecPhase),
    c.capacity = s.cfg.capacity → c.busyParityPolicy = s.cfg.busyParityPolicy →
    exec (.edge d) s = .next t →
    t.shiftHeld = s.shiftHeld ∧ t.capsLockOn = s.capsLockOn ∧ t.decPhase = s.decPhase ∧ t.cfg = s.cfg ∧
    exec (.edge d) { s with cfg := c, shiftHeld := sh, capsLockOn := cl, decPhase := p } =
      .next { t with cfg := c, shiftHeld := sh, capsLockOn := cl, decPhase := p }

/-! ## The byte queue -/

/-- PUSH (41_queue.md R131): on a full queue it returns FALSE and changes nothing; otherwise it stores the byte at
`next(tail)`, leaves every other slot, makes that slot the tail, clears `empty` and returns TRUE. The
pointer discipline is the spec's own decision D6 (41_queue.md R130, log 18). -/
def Obligations.PushAppendsTheByteOrFails : Prop :=
  ∀ (s : State) (b : Byte), s.context = .producer → 1 ≤ s.cfg.capacity → Memory.wf s.storage = true →
    encode (.push b) = 0x0200#16 ||| b.setWidth 16 ∧
    (s.empty = false ∧ (s.tail + 1) % s.cfg.capacity = s.head →
      exec (.push b) s = .next { s with result := .bool false }) ∧
    (¬ (s.empty = false ∧ (s.tail + 1) % s.cfg.capacity = s.head) →
      ∃ t, exec (.push b) s = .next t ∧
        Memory.read t.storage ((s.tail + 1) % s.cfg.capacity) = b ∧
        (∀ a, a ≠ (s.tail + 1) % s.cfg.capacity → Memory.read t.storage a = Memory.read s.storage a) ∧
        t = { s with
          storage := t.storage, tail := (s.tail + 1) % s.cfg.capacity, empty := false, result := .bool true })

/-- POP (41_queue.md R132): on an empty queue it returns NONE and changes nothing; otherwise it returns the byte at
`head`, moves `head` on, and sets `empty` when that byte was the last. The storage is not written. The
pointer discipline is the spec's own decision D6 (41_queue.md R130, log 18). -/
def Obligations.PopReturnsAndRemovesTheOldestByte : Prop :=
  ∀ s : State, s.context = .consumer → s.head < s.cfg.capacity →
    encode .pop = 0x0300#16 ∧
    (s.empty = true → exec .pop s = .next { s with result := .byte none }) ∧
    (s.empty = false → s.head = s.tail →
      exec .pop s =
        .next { s with
          empty := true, head := (s.head + 1) % s.cfg.capacity,
          result := .byte (some (Memory.read s.storage s.head)) }) ∧
    (s.empty = false → s.head ≠ s.tail →
      exec .pop s =
        .next { s with
          head := (s.head + 1) % s.cfg.capacity, result := .byte (some (Memory.read s.storage s.head)) })

/-- PEEK (41_queue.md R133; one atomic step by the spec's own decision D18): the oldest byte, not removed, and NONE
from an empty queue. -/
def Obligations.PeekReturnsTheOldestByteAndChangesNothing : Prop :=
  ∀ s : State, s.context = .consumer → s.head < s.cfg.capacity →
    encode .peek = 0x0400#16 ∧
    (s.empty = true → exec .peek s = .next { s with result := .byte none }) ∧
    (s.empty = false → exec .peek s = .next { s with result := .byte (some (Memory.read s.storage s.head)) })

/-- ISEMPTY (41_queue.md R134): return `empty`, change nothing. -/
def Obligations.IsemptyReturnsTheSentinel : Prop :=
  ∀ s : State, s.context = .consumer →
    encode .isempty = 0x0500#16 ∧ exec .isempty s = .next { s with result := .bool s.empty }

/-- PEEK, ISEMPTY and ISBUSY are idempotent (20_memory.md R53, derived there): issued again at once, each returns the
same and changes nothing more. -/
def Obligations.ReadsAreIdempotent : Prop :=
  ∀ (i : Instr) (s t : State), i = .peek ∨ i = .isempty ∨ i = .isbusy → exec i s = .next t →
    exec i t = .next t ∧ t = { s with result := t.result }

/-- The queue is a bounded first-in first-out list (10_state.md section 7 and 41_queue.md section "Derived laws",
derived there): in every state of the invariant the unread bytes number `count`, at most N; PUSH appends to them and
returns TRUE below N, and returns FALSE and leaves them at N; POP returns and removes their first, or NONE; PEEK
returns it; ISEMPTY says whether there is none. -/
def Obligations.QueueRefinesABoundedFifo : Prop :=
  ∀ s : State, BlockInv s →
    s.unread.length = s.count ∧ s.count ≤ s.cfg.capacity ∧
    (s.context = .producer → ∀ b,
      ∃ t, exec (.push b) s = .next t ∧
        (s.unread.length < s.cfg.capacity → t.unread = s.unread ++ [b] ∧ t.result = .bool true) ∧
        (s.unread.length = s.cfg.capacity → t.unread = s.unread ∧ t.result = .bool false)) ∧
    (s.context = .consumer →
      (∃ t, exec .pop s = .next t ∧ t.unread = s.unread.tail ∧ t.result = .byte s.unread.head?) ∧
      (∃ t, exec .peek s = .next t ∧ t.unread = s.unread ∧ t.result = .byte s.unread.head?) ∧
      (∃ t, exec .isempty s = .next t ∧ t.unread = s.unread ∧ t.result = .bool s.unread.isEmpty))

/-- The FIFO law (41_queue.md section "Derived laws", derived there): over any interleaving of PUSH and POP from an
empty queue, the bytes whose PUSH returned TRUE are those POP returned, in order, followed by the unread ones; and a
POP returns NONE exactly when every byte pushed before it had been popped. -/
def Obligations.BytesComeOutInTheOrderTheyWentIn : Prop :=
  ∀ (ops : List Instr) (s : State), Inv s → s.empty = true →
    (∀ i ∈ ops, i = .pop ∨ ∃ b, i = .push b) →
    ∃ log t, runIssued ops s = some (log, t) ∧ log.map Prod.fst = ops ∧
      pushedBytes log = poppedBytes log ++ t.unread ∧
      (∀ l₁ r l₂, log = l₁ ++ (.pop, r) :: l₂ → (r = .byte none ↔ pushedBytes l₁ = poppedBytes l₁))

/-- The capacity law (41_queue.md section "Derived laws", derived there): PUSH returns FALSE exactly when `count` is N;
from an empty queue N PUSHes return TRUE, the next returns FALSE and leaves the queue, and after one POP the next PUSH
returns TRUE. -/
def Obligations.QueueHoldsExactlyNBytes : Prop :=
  ∀ s : State, Inv s →
    (∀ b, ∃ t, execIssued (.push b) s = .next t ∧ (t.result = .bool false ↔ s.count = s.cfg.capacity)) ∧
    (s.empty = true → ∀ (bs : List Byte) (x y : Byte), bs.length = s.cfg.capacity →
      ∃ log₁ t₁ t₂ t₃ t₄, runIssued (bs.map .push) s = some (log₁, t₁) ∧
        (∀ e ∈ log₁, e.2 = .bool true) ∧ t₁.unread = bs ∧
        execIssued (.push x) t₁ = .next t₂ ∧ t₂ = { t₁ with result := .bool false } ∧
        execIssued .pop t₂ = .next t₃ ∧
        execIssued (.push y) t₃ = .next t₄ ∧ t₄.result = .bool true)

/-- Only the consumer removes bytes (20_memory.md R63, derived there): after any operation of the producer on a queue
that is not empty, it is not empty and its oldest byte is the same. -/
def Obligations.ProducerNeverChangesTheOldestByte : Prop :=
  ∀ (i : Instr) (s t : State), BlockInv s → issuer i = .producer → s.empty = false → exec i s = .next t →
    t.empty = false ∧ t.head = s.head ∧ Memory.read t.storage t.head = Memory.read s.storage s.head ∧
    s.unread <+: t.unread

/-! ## The decoder -/

/-- GETKEY (42_decoder.md R151), one atomic step for each phase. Phase 1 pops a byte: NONE from an empty queue;
the break marker ends the phase; then, in this order, a shift code sets `shift_held`, the caps code toggles
`caps_lock_on`, a byte of 0x80 or more gives NONE, and otherwise the entry of the selected table is the result, NONE
for NOMAP. Phase 2 pops a byte and clears `shift_held` when it is a shift code. The two phases, a byte of 0x80 or more
and a marker with nothing after it are the spec's own decisions D16, D14 and D15 (log 18). -/
def Obligations.GetkeyFollowsTheDecodeAlgorithm : Prop :=
  ∀ s : State, s.context = .consumer → s.head < s.cfg.capacity →
    let c := Memory.read s.storage s.head
    let popped : State := { s with empty := decide (s.head = s.tail), head := (s.head + 1) % s.cfg.capacity }
    (s.decPhase = .idle →
      (s.empty = true → exec .getkey s = .next { s with result := .byte none }) ∧
      (s.empty = false →
        (c = s.cfg.breakCode →
          exec .getkey s = .next { popped with decPhase := .afterBreak, result := .nothing }) ∧
        (c ≠ s.cfg.breakCode →
          (c = s.cfg.shiftLCode ∨ c = s.cfg.shiftRCode →
            exec .getkey s = .next { popped with shiftHeld := true, result := .byte none }) ∧
          (¬ (c = s.cfg.shiftLCode ∨ c = s.cfg.shiftRCode) →
            (c = s.cfg.capsCode →
              exec .getkey s = .next { popped with capsLockOn := !s.capsLockOn, result := .byte none }) ∧
            (c ≠ s.cfg.capsCode →
              (0x80 ≤ c.toNat → exec .getkey s = .next { popped with result := .byte none }) ∧
              (∀ h : c.toNat < 128,
                let ch := if s.shiftHeld = s.capsLockOn then s.cfg.unshifted[c.toNat] else s.cfg.shifted[c.toNat]
                (ch = s.cfg.nomap → exec .getkey s = .next { popped with result := .byte none }) ∧
                (ch ≠ s.cfg.nomap → exec .getkey s = .next { popped with result := .byte (some ch) }))))))) ∧
    (s.decPhase = .afterBreak →
      (s.empty = true → exec .getkey s = .next { s with decPhase := .idle, result := .byte none }) ∧
      (s.empty = false →
        (c = s.cfg.shiftLCode ∨ c = s.cfg.shiftRCode →
          exec .getkey s = .next { popped with decPhase := .idle, shiftHeld := false, result := .byte none }) ∧
        (¬ (c = s.cfg.shiftLCode ∨ c = s.cfg.shiftRCode) →
          exec .getkey s = .next { popped with decPhase := .idle, result := .byte none })))

/-- Table selection (42_decoder.md R153): by `shift_held xor caps_lock_on`, in the four rows of the rule's table, for
every code 0x00 to 0x7F that is no special code, punctuation among them. GETKEY returns the entry of the selected
table as the character, for an entry that is not NOMAP. -/
def Obligations.TableIsSelectedByShiftXorCaps : Prop :=
  ∀ (s : State) (c : Fin 128) (u v : Byte), s.context = .consumer → s.decPhase = .idle → s.empty = false →
    s.head < s.cfg.capacity → Memory.read s.storage s.head = BitVec.ofNat 8 c.val →
    BitVec.ofNat 8 c.val ∉ [s.cfg.breakCode, s.cfg.shiftLCode, s.cfg.shiftRCode, s.cfg.capsCode] →
    s.cfg.unshifted[c] = u → s.cfg.shifted[c] = v → u ≠ s.cfg.nomap → v ≠ s.cfg.nomap →
    ∃ t, exec .getkey s = .next t ∧
      (s.capsLockOn = false → s.shiftHeld = false → t.result = .byte (some u)) ∧
      (s.capsLockOn = false → s.shiftHeld = true → t.result = .byte (some v)) ∧
      (s.capsLockOn = true → s.shiftHeld = false → t.result = .byte (some v)) ∧
      (s.capsLockOn = true → s.shiftHeld = true → t.result = .byte (some u))

/-- GETKEY never returns the placeholder, nor any character for a byte of 0x80 or more (42_decoder.md R155 and R156, by
the spec's own decisions D13 and D14). -/
def Obligations.GetkeyNeverReturnsThePlaceholder : Prop :=
  ∀ (s t : State) (ch : Byte), exec .getkey s = .next t → t.result = .byte (some ch) →
    ch ≠ s.cfg.nomap ∧ s.empty = false ∧ s.decPhase = .idle ∧ (Memory.read s.storage s.head).toNat < 128 ∧
    t.shiftHeld = s.shiftHeld ∧ t.capsLockOn = s.capsLockOn

/-- What one GETKEY consumes (42_decoder.md R157, derived there; 20_memory.md R65): its first step removes the oldest
byte, if there is one, and either returns or, after a break marker, leaves a second step, which removes the oldest byte
then, if there is one, and returns NONE. A character comes only from a first step that removed a byte and returned. -/
def Obligations.GetkeyConsumesAtMostOneBytePerPhase : Prop :=
  ∀ s : State, BlockInv s → s.context = .consumer →
    ∃ t, exec .getkey s = .next t ∧ t.unread = s.unread.tail ∧
      (s.decPhase = .afterBreak → t.decPhase = .idle ∧ t.result = .byte none) ∧
      (s.decPhase = .idle →
        (t.decPhase = .afterBreak ↔ s.unread.head? = some s.cfg.breakCode) ∧
        (∀ ch, t.result = .byte (some ch) → t.decPhase = .idle ∧ s.unread ≠ []))

/-- The modifier laws (42_decoder.md R158, derived there): with the letter code 0x1C of the pinned table entries and
special codes other than it, SHIFT, letter, BREAK SHIFT, letter gives 'A' and then 'a' with caps lock off, and 'a' and
then 'A' with caps lock on. -/
def Obligations.ShiftAndCapsSelectTheLetterCase : Prop :=
  ∀ s : State, Inv s → s.decPhase = .idle → s.shiftHeld = false →
    s.cfg.shiftLCode ≠ s.cfg.breakCode →
    0x1C#8 ≠ s.cfg.breakCode → 0x1C#8 ≠ s.cfg.shiftLCode → 0x1C#8 ≠ s.cfg.shiftRCode → 0x1C#8 ≠ s.cfg.capsCode →
    s.cfg.nomap ≠ 0x61#8 → s.cfg.nomap ≠ 0x41#8 →
    s.unread = [s.cfg.shiftLCode, 0x1C#8, s.cfg.breakCode, s.cfg.shiftLCode, 0x1C#8] →
    ∃ log t, runIssued [.getkey, .getkey, .getkey, .getkey, .getkey] s = some (log, t) ∧
      log.map Prod.snd =
        (if s.capsLockOn then
          [.byte none, .byte (some 0x61#8), .nothing, .byte none, .byte (some 0x41#8)]
        else [.byte none, .byte (some 0x41#8), .nothing, .byte none, .byte (some 0x61#8)]) ∧
      t.unread = [] ∧ t.shiftHeld = false ∧ t.capsLockOn = s.capsLockOn

/-! ## The facade, power-on and INIT -/

/-- ISBUSY (43_facade.md R170; one snapshot by the spec's own decision D17): `busy or empty`, change nothing. -/
def Obligations.IsbusyReturnsBusyOrEmpty : Prop :=
  ∀ s : State, s.context = .consumer →
    encode .isbusy = 0x0700#16 ∧ exec .isbusy s = .next { s with result := .bool (s.busy || s.empty) }

/-- INIT (43_facade.md R171; the order, the history, the pointers and the frame context by the spec's own decisions
D6, D8, D9, D19): every register at its reset value, the edge interrupt enabled, the storage not written. -/
def Obligations.InitResetsTheBlockAndEnablesTheInterrupt : Prop :=
  ∀ s : State, s.context = .consumer →
    encode .init = 0x0800#16 ∧
    exec .init s =
      .next { s with
        fsmState := .awaitStart, bitIndex := 0, accumulator := 0x00, parityOnesCount := 0, busy := false,
        lastAccepted := s.cfg.lastReset, secondLastAccepted := s.cfg.lastReset,
        head := 0, tail := s.cfg.capacity - 1, empty := true,
        shiftHeld := false, capsLockOn := false, decPhase := .idle, edgeIrqEn := true, result := .nothing }

/-- What power-on leaves (70_reset_and_hazards.md R200): AWAIT_START, the modifier latch off and an empty queue, which
the source states or implies; the other registers at the values of the spec's own decisions D6, D8, D9, D16, D19; the
configuration's defaults of 00_scope.md R8 that the source gives, `SHIFT_L_CODE` and the two pinned entries. -/
def Obligations.PowerOnStateIsTheResetTable : Prop :=
  State.reset = State.powerOn Config.default ∧
  (∀ c : Config,
    (State.powerOn c).fsmState = .awaitStart ∧ (State.powerOn c).shiftHeld = false ∧
    (State.powerOn c).capsLockOn = false ∧ (State.powerOn c).empty = true ∧
    (State.powerOn c).bitIndex = 0 ∧ (State.powerOn c).accumulator = 0x00 ∧
    (State.powerOn c).parityOnesCount = 0 ∧ (State.powerOn c).busy = false ∧
    (State.powerOn c).lastAccepted = c.lastReset ∧ (State.powerOn c).secondLastAccepted = c.lastReset ∧
    (State.powerOn c).head = 0 ∧ (State.powerOn c).tail = c.capacity - 1 ∧
    (State.powerOn c).decPhase = .idle ∧ (State.powerOn c).edgeIrqEn = false ∧ (State.powerOn c).cfg = c) ∧
  Config.default.wf = true ∧ Config.default.shiftLCode = 0x12 ∧ Config.default.capacity = 20 ∧
  Config.default.unshifted[0x1C] = 0x61 ∧ Config.default.shifted[0x1C] = 0x41

/-- Before the first INIT (70_reset_and_hazards.md R203, derived there; power-on by the spec's own decision D19): in every
state with the edge interrupt disabled, an empty queue and no GETKEY in progress, each operation but INIT and PUSH
answers as from an empty queue and a busy keyboard, an EDGE changes nothing, and the state stays such a state. So every
run of these operations from power-on gives those results, and ends in the power-on state but for the result of its
last operation. (In the assembled block the only PUSH is the one inside an EDGE; a harness that pushes before INIT
fills the queue. What an EDGE that is not serviced does is log 9.) -/
def Obligations.BeforeInitTheQueueIsEmptyAndNoEdgeCounts : Prop :=
  (∀ (s : State) (d : BitVec 1), s.edgeIrqEn = false → s.empty = true → s.decPhase = .idle →
    execIssued .pop s = .next { s with context := .consumer, result := .byte none } ∧
    execIssued .peek s = .next { s with context := .consumer, result := .byte none } ∧
    execIssued .getkey s = .next { s with context := .consumer, result := .byte none } ∧
    execIssued .isempty s = .next { s with context := .consumer, result := .bool true } ∧
    execIssued .isbusy s = .next { s with context := .consumer, result := .bool true } ∧
    execIssued (.edge d) s = .next { s with context := .consumer }) ∧
  (∀ (c : Config) (ops : List Instr), (∀ i ∈ ops, i ≠ .init ∧ ∀ b, i ≠ .push b) →
    ∃ log t, runIssued ops (State.powerOn c) = some (log, t) ∧ log.map Prod.fst = ops ∧
      t = { State.powerOn c with result := t.result } ∧
      (∀ r, (.pop, r) ∈ log ∨ (.peek, r) ∈ log ∨ (.getkey, r) ∈ log → r = .byte none) ∧
      (∀ r, (.isempty, r) ∈ log ∨ (.isbusy, r) ∈ log → r = .bool true))

/-! ## The whole machine -/

/-- The frame of every operation, from the access matrix (10_state.md section 6, derived there): when an operation
gives a next state, every field of the state is as before but those it is said to write; `storage` is written at
`next(tail)` only. `result` and `trace` are the model's (log 11). -/
def Obligations.OperationsWriteOnlyWhatTheAccessMatrixSays : Prop :=
  ∀ s t : State,
    (∀ d, exec (.edge d) s = .next t →
      t = { s with
        fsmState := t.fsmState, bitIndex := t.bitIndex, accumulator := t.accumulator,
        parityOnesCount := t.parityOnesCount, busy := t.busy, lastAccepted := t.lastAccepted,
        secondLastAccepted := t.secondLastAccepted, storage := t.storage, tail := t.tail, empty := t.empty,
        result := t.result, trace := t.trace } ∧
      (∀ a, a ≠ (s.tail + 1) % s.cfg.capacity → Memory.read t.storage a = Memory.read s.storage a)) ∧
    (∀ b, exec (.push b) s = .next t →
      t = { s with storage := t.storage, tail := t.tail, empty := t.empty, result := t.result } ∧
      (∀ a, a ≠ (s.tail + 1) % s.cfg.capacity → Memory.read t.storage a = Memory.read s.storage a)) ∧
    (exec .pop s = .next t → t = { s with head := t.head, empty := t.empty, result := t.result }) ∧
    (exec .peek s = .next t → t = { s with result := t.result }) ∧
    (exec .isempty s = .next t → t = { s with result := t.result }) ∧
    (exec .getkey s = .next t →
      t = { s with
        head := t.head, empty := t.empty, shiftHeld := t.shiftHeld, capsLockOn := t.capsLockOn,
        decPhase := t.decPhase, result := t.result }) ∧
    (exec .isbusy s = .next t → t = { s with result := t.result }) ∧
    (exec .init s = .next t →
      t = { s with
        fsmState := t.fsmState, bitIndex := t.bitIndex, accumulator := t.accumulator,
        parityOnesCount := t.parityOnesCount, busy := t.busy, lastAccepted := t.lastAccepted,
        secondLastAccepted := t.secondLastAccepted, head := t.head, tail := t.tail, empty := t.empty,
        shiftHeld := t.shiftHeld, capsLockOn := t.capsLockOn, decPhase := t.decPhase, edgeIrqEn := t.edgeIrqEn,
        result := t.result })

/-- No operation reads the trace, and only an EDGE writes it, at most one event a step (60_exceptions.md R181, the
spec's own decision D30; the trace is the model's, log 11). -/
def Obligations.TheTraceIsNeverReadAndEdgeRecordsAtMostOneEvent : Prop :=
  ∀ (i : Instr) (s t : State), exec i s = .next t →
    ∃ es : List Event, es.length ≤ 1 ∧ (isEdge i = false → es = []) ∧
      ∀ l, exec i { s with trace := l } = .next { t with trace := l ++ es }

/-- The invariant holds at power-on, under every well-formed configuration (10_state.md R39 and R40, derived there). -/
def Obligations.InvariantHoldsAtPowerOn : Prop :=
  (∀ c : Config, c.wf = true → Inv (State.powerOn c)) ∧ Inv State.reset

/-- Every step keeps the invariant of 10_state.md R39 and R40 (derived there): the framer's index, count and busy flag
agree with its state, the queue's indices stay in range and agree with `empty`, and the storage keeps its form. -/
def Obligations.EveryStepKeepsTheInvariant : Prop :=
  ∀ s t : State, Inv s → step s = .next t → Inv t

/-- No step faults from a state of the invariant, and every step that issues a legal word from the right agent, or goes
on with a GETKEY, or issues nothing, completes (60_exceptions.md R180, 20_memory.md R65). -/
def Obligations.NoStepFaultsAndLegalStepsComplete : Prop :=
  ∀ s : State, Inv s →
    (∀ f, step s ≠ .fault f) ∧
    ((∀ a w rest, s.agenda = .issue a w :: rest → ∃ i, decode w = .instr i ∧ a = issuer i) →
      ∃ t, step s = .next t)

/-- An access to a queue slot that does not exist is the one fault, and only states outside the invariant make it
(10_state.md R27; the fault is the model's choice, log 6): a read at `head` or a write at `next(tail)` outside
0..N-1. -/
def Obligations.AbsentSlotsFault : Prop :=
  ∀ s : State,
    (s.context = .consumer → s.empty = false → s.cfg.capacity ≤ s.head →
      exec .pop s = .fault (.noSuchSlot s.head) ∧ exec .peek s = .fault (.noSuchSlot s.head) ∧
      exec .getkey s = .fault (.noSuchSlot s.head)) ∧
    (s.context = .producer → s.cfg.capacity = 0 → ¬ (s.empty = false ∧ s.tail + 1 = s.head) →
      (∀ b, exec (.push b) s = .fault (.noSuchSlot (s.tail + 1))) ∧
      (s.edgeIrqEn = true → s.fsmState = .awaitStop →
        ¬ (s.accumulator = s.lastAccepted ∧ s.accumulator = s.secondLastAccepted) →
        exec (.edge 1) s = .fault (.noSuchSlot (s.tail + 1)))) ∧
    (∀ i f, BlockInv s → exec i s ≠ .fault f)

/-- Every operation issued by its own agent completes from every state of the invariant (60_exceptions.md R180,
20_memory.md R65). -/
def Obligations.EveryOperationCompletes : Prop :=
  ∀ (i : Instr) (s : State), BlockInv s → s.context = issuer i → ∃ t, exec i s = .next t ∧ BlockInv t

/-- No step changes the configuration, the translation tables among it (10_state.md R34). -/
def Obligations.NoStepChangesTheConfiguration : Prop :=
  ∀ s t : State, step s = .next t → t.cfg = s.cfg

/-- What the slots that hold no unread byte contain, the power-on draws among them, is never observed (10_state.md
sections 3 and 7, derived there): from two states of the invariant that differ only in such slots, a step of one is
matched by a step of the other, with the same result and event, and the states after it differ only in such slots. -/
def Obligations.SlotsWithoutAnUnreadByteAreNeverObserved : Prop :=
  ∀ s t s' : State, Inv s → Inv t → t = { s with storage := t.storage } → t.unread = s.unread →
    step s = .next s' →
    ∃ t', step t = .next t' ∧ t' = { s' with storage := t'.storage } ∧ t'.unread = s'.unread

/-- The index registers (10_state.md R28, R29; their reset values are the spec's own decision D6): the width is
ceil(log2 N), the least that holds every slot number, and 5 bits for N = 20; `head` and `tail` hold values of that width
at power-on, in every state of the invariant, and after every step from a state in which they do, whatever else holds
there. POP and GETKEY never write `tail`, and PUSH and EDGE never write `head`. -/
def Obligations.IndexRegistersHoldTheirWidth : Prop :=
  (∀ c : Config, c.wf = true →
    c.capacity ≤ 2 ^ indexWidth c ∧ (∀ w, c.capacity ≤ 2 ^ w → indexWidth c ≤ w) ∧
    (State.powerOn c).indicesFit = true) ∧
  indexWidth Config.default = 5 ∧
  (∀ s : State, Inv s → s.indicesFit = true) ∧
  (∀ s t : State, step s = .next t → s.indicesFit = true → t.indicesFit = true) ∧
  (∀ (i : Instr) (s t : State), exec i s = .next t → i ≠ .init →
    (issuer i = .producer → t.head = s.head) ∧ (issuer i = .consumer → t.tail = s.tail))
end

