-- ==== Sys2Proof/Laws/Memory.lean ====
section
/-! SUPPORT. The queue storage: read after write, and that a write keeps the canonical form. -/

namespace Sys2Proof.Machine

variable {m : Memory} {lo n a b : Nat} {v : Byte}

/-- A slot below every listed one reads as unlisted. -/
theorem Memory.read_below (h : Memory.wfFrom lo m = true) (ha : a < lo) : Memory.read m a = unlistedByte := by
  induction m generalizing lo with
  | nil => rfl
  | cons cell m ih =>
    simp only [Memory.wfFrom, Bool.and_eq_true, decide_eq_true_eq] at h
    have hne : cell.1 ≠ a := by omega
    simpa [Memory.read, hne] using ih h.2 (by omega)

theorem Memory.read_cons_same (h : Memory.read m a = unlistedByte) : Memory.read (Memory.cons a v m) a = v := by
  unfold Memory.cons
  split
  · rw [h]; exact Eq.symm ‹_›
  · simp [Memory.read]

theorem Memory.read_cons_other (h : b ≠ a) : Memory.read (Memory.cons a v m) b = Memory.read m b := by
  unfold Memory.cons
  split
  · rfl
  · simp [Memory.read, h.symm]

/-- A read after a write to the same slot gives the byte written. -/
theorem Memory.read_write_same (h : Memory.wfFrom lo m = true) : Memory.read (Memory.write m a v) a = v := by
  induction m generalizing lo with
  | nil => exact Memory.read_cons_same rfl
  | cons cell m ih =>
    have hm : Memory.wfFrom (cell.1 + 1) m = true := by
      simp only [Memory.wfFrom, Bool.and_eq_true] at h
      exact h.2
    unfold Memory.write
    split
    · refine Memory.read_cons_same ?_
      have hne : cell.1 ≠ a := by omega
      simpa [Memory.read, hne] using Memory.read_below hm (by omega)
    · split
      · exact Memory.read_cons_same (Memory.read_below hm (by omega))
      · have hne : cell.1 ≠ a := Ne.symm ‹_›
        simpa [Memory.read, hne] using ih hm

/-- A write leaves every other slot alone. -/
theorem Memory.read_write_other (h : b ≠ a) : Memory.read (Memory.write m a v) b = Memory.read m b := by
  induction m with
  | nil => exact Memory.read_cons_other h
  | cons cell m ih =>
    unfold Memory.write
    split
    · exact Memory.read_cons_other h
    · split
      · rw [Memory.read_cons_other h]
        have hne : cell.1 ≠ b := by omega
        simp [Memory.read, hne]
      · simp [Memory.read, ih]

theorem Memory.wfFrom_mono {lo' : Nat} (h : Memory.wfFrom lo m = true) (hlo : lo' ≤ lo) :
    Memory.wfFrom lo' m = true := by
  cases m with
  | nil => rfl
  | cons cell m =>
    simp only [Memory.wfFrom, Bool.and_eq_true, decide_eq_true_eq] at h ⊢
    exact ⟨⟨by omega, h.1.2⟩, h.2⟩

theorem Memory.wfFrom_cons (h : Memory.wfFrom (a + 1) m = true) (hlo : lo ≤ a) :
    Memory.wfFrom lo (Memory.cons a v m) = true := by
  unfold Memory.cons
  split
  · exact Memory.wfFrom_mono h (by omega)
  · simp [Memory.wfFrom, *]

/-- A write keeps the canonical form. -/
theorem Memory.wfFrom_write (h : Memory.wfFrom lo m = true) (hlo : lo ≤ a) :
    Memory.wfFrom lo (Memory.write m a v) = true := by
  induction m generalizing lo with
  | nil => exact Memory.wfFrom_cons rfl hlo
  | cons cell m ih =>
    have hh := h
    simp only [Memory.wfFrom, Bool.and_eq_true, decide_eq_true_eq] at hh
    unfold Memory.write
    split
    · refine Memory.wfFrom_cons ?_ hlo
      simp only [Memory.wfFrom, Bool.and_eq_true, decide_eq_true_eq]
      exact ⟨⟨by omega, hh.1.2⟩, hh.2⟩
    · split
      · exact Memory.wfFrom_cons (by rw [‹a = cell.1›]; exact hh.2) hlo
      · simp only [Memory.wfFrom, Bool.and_eq_true, decide_eq_true_eq]
        exact ⟨hh.1, ih hh.2 (by omega)⟩

/-- The memory at reset is in canonical form. -/
theorem Memory.wf_reset : Memory.wf State.reset.storage = true := rfl

theorem Memory.wf_write (h : Memory.wf m = true) : Memory.wf (Memory.write m a v) = true :=
  Memory.wfFrom_write h (Nat.zero_le a)

/-- A write to a slot that exists lists no slot that does not. -/
theorem Memory.within_write (h : Memory.within m n = true) (ha : a < n) :
    Memory.within (Memory.write m a v) n = true := by
  have hcons : ∀ {m' : Memory}, Memory.within m' n = true → Memory.within (Memory.cons a v m') n = true := by
    intro m' hm'
    unfold Memory.cons
    split
    · exact hm'
    · simpa [Memory.within, ha] using hm'
  induction m with
  | nil => exact hcons rfl
  | cons cell m ih =>
    have hh : cell.1 < n ∧ Memory.within m n = true := by simpa [Memory.within] using h
    unfold Memory.write
    split
    · exact hcons h
    · split
      · exact hcons hh.2
      · simpa [Memory.within, hh.1] using ih hh.2

end Sys2Proof.Machine
end

