-- ==== Sys2Proof/Laws/State.lean ====
section
/-! SUPPORT. What each named update of State does to each field. -/

namespace Sys2Proof.Machine

variable (s : State)

@[simp] theorem State.returning_cfg (r : Result) : (State.returning r s).cfg = s.cfg := rfl
@[simp] theorem State.returning_fsmState (r : Result) : (State.returning r s).fsmState = s.fsmState := rfl
@[simp] theorem State.returning_bitIndex (r : Result) : (State.returning r s).bitIndex = s.bitIndex := rfl
@[simp] theorem State.returning_accumulator (r : Result) : (State.returning r s).accumulator = s.accumulator := rfl
@[simp] theorem State.returning_parityOnesCount (r : Result) : (State.returning r s).parityOnesCount = s.parityOnesCount := rfl
@[simp] theorem State.returning_busy (r : Result) : (State.returning r s).busy = s.busy := rfl
@[simp] theorem State.returning_lastAccepted (r : Result) : (State.returning r s).lastAccepted = s.lastAccepted := rfl
@[simp] theorem State.returning_secondLastAccepted (r : Result) : (State.returning r s).secondLastAccepted = s.secondLastAccepted := rfl
@[simp] theorem State.returning_storage (r : Result) : (State.returning r s).storage = s.storage := rfl
@[simp] theorem State.returning_head (r : Result) : (State.returning r s).head = s.head := rfl
@[simp] theorem State.returning_tail (r : Result) : (State.returning r s).tail = s.tail := rfl
@[simp] theorem State.returning_empty (r : Result) : (State.returning r s).empty = s.empty := rfl
@[simp] theorem State.returning_shiftHeld (r : Result) : (State.returning r s).shiftHeld = s.shiftHeld := rfl
@[simp] theorem State.returning_capsLockOn (r : Result) : (State.returning r s).capsLockOn = s.capsLockOn := rfl
@[simp] theorem State.returning_decPhase (r : Result) : (State.returning r s).decPhase = s.decPhase := rfl
@[simp] theorem State.returning_edgeIrqEn (r : Result) : (State.returning r s).edgeIrqEn = s.edgeIrqEn := rfl
@[simp] theorem State.returning_context (r : Result) : (State.returning r s).context = s.context := rfl
@[simp] theorem State.returning_result (r : Result) : (State.returning r s).result = r := rfl
@[simp] theorem State.returning_trace (r : Result) : (State.returning r s).trace = s.trace := rfl
@[simp] theorem State.returning_agenda (r : Result) : (State.returning r s).agenda = s.agenda := rfl

@[simp] theorem State.record_cfg (tag : EventTag) (v : Option Byte) : (State.record tag v s).cfg = s.cfg := rfl
@[simp] theorem State.record_fsmState (tag : EventTag) (v : Option Byte) : (State.record tag v s).fsmState = s.fsmState := rfl
@[simp] theorem State.record_bitIndex (tag : EventTag) (v : Option Byte) : (State.record tag v s).bitIndex = s.bitIndex := rfl
@[simp] theorem State.record_accumulator (tag : EventTag) (v : Option Byte) : (State.record tag v s).accumulator = s.accumulator := rfl
@[simp] theorem State.record_parityOnesCount (tag : EventTag) (v : Option Byte) : (State.record tag v s).parityOnesCount = s.parityOnesCount := rfl
@[simp] theorem State.record_busy (tag : EventTag) (v : Option Byte) : (State.record tag v s).busy = s.busy := rfl
@[simp] theorem State.record_lastAccepted (tag : EventTag) (v : Option Byte) : (State.record tag v s).lastAccepted = s.lastAccepted := rfl
@[simp] theorem State.record_secondLastAccepted (tag : EventTag) (v : Option Byte) : (State.record tag v s).secondLastAccepted = s.secondLastAccepted := rfl
@[simp] theorem State.record_storage (tag : EventTag) (v : Option Byte) : (State.record tag v s).storage = s.storage := rfl
@[simp] theorem State.record_head (tag : EventTag) (v : Option Byte) : (State.record tag v s).head = s.head := rfl
@[simp] theorem State.record_tail (tag : EventTag) (v : Option Byte) : (State.record tag v s).tail = s.tail := rfl
@[simp] theorem State.record_empty (tag : EventTag) (v : Option Byte) : (State.record tag v s).empty = s.empty := rfl
@[simp] theorem State.record_shiftHeld (tag : EventTag) (v : Option Byte) : (State.record tag v s).shiftHeld = s.shiftHeld := rfl
@[simp] theorem State.record_capsLockOn (tag : EventTag) (v : Option Byte) : (State.record tag v s).capsLockOn = s.capsLockOn := rfl
@[simp] theorem State.record_decPhase (tag : EventTag) (v : Option Byte) : (State.record tag v s).decPhase = s.decPhase := rfl
@[simp] theorem State.record_edgeIrqEn (tag : EventTag) (v : Option Byte) : (State.record tag v s).edgeIrqEn = s.edgeIrqEn := rfl
@[simp] theorem State.record_context (tag : EventTag) (v : Option Byte) : (State.record tag v s).context = s.context := rfl
@[simp] theorem State.record_result (tag : EventTag) (v : Option Byte) : (State.record tag v s).result = s.result := rfl
@[simp] theorem State.record_trace (tag : EventTag) (v : Option Byte) : (State.record tag v s).trace = s.trace ++ [⟨tag, v⟩] := rfl
@[simp] theorem State.record_agenda (tag : EventTag) (v : Option Byte) : (State.record tag v s).agenda = s.agenda := rfl

@[simp] theorem State.enter_cfg (a : Agent) : (State.enter a s).cfg = s.cfg := rfl
@[simp] theorem State.enter_fsmState (a : Agent) : (State.enter a s).fsmState = s.fsmState := rfl
@[simp] theorem State.enter_bitIndex (a : Agent) : (State.enter a s).bitIndex = s.bitIndex := rfl
@[simp] theorem State.enter_accumulator (a : Agent) : (State.enter a s).accumulator = s.accumulator := rfl
@[simp] theorem State.enter_parityOnesCount (a : Agent) : (State.enter a s).parityOnesCount = s.parityOnesCount := rfl
@[simp] theorem State.enter_busy (a : Agent) : (State.enter a s).busy = s.busy := rfl
@[simp] theorem State.enter_lastAccepted (a : Agent) : (State.enter a s).lastAccepted = s.lastAccepted := rfl
@[simp] theorem State.enter_secondLastAccepted (a : Agent) : (State.enter a s).secondLastAccepted = s.secondLastAccepted := rfl
@[simp] theorem State.enter_storage (a : Agent) : (State.enter a s).storage = s.storage := rfl
@[simp] theorem State.enter_head (a : Agent) : (State.enter a s).head = s.head := rfl
@[simp] theorem State.enter_tail (a : Agent) : (State.enter a s).tail = s.tail := rfl
@[simp] theorem State.enter_empty (a : Agent) : (State.enter a s).empty = s.empty := rfl
@[simp] theorem State.enter_shiftHeld (a : Agent) : (State.enter a s).shiftHeld = s.shiftHeld := rfl
@[simp] theorem State.enter_capsLockOn (a : Agent) : (State.enter a s).capsLockOn = s.capsLockOn := rfl
@[simp] theorem State.enter_decPhase (a : Agent) : (State.enter a s).decPhase = s.decPhase := rfl
@[simp] theorem State.enter_edgeIrqEn (a : Agent) : (State.enter a s).edgeIrqEn = s.edgeIrqEn := rfl
@[simp] theorem State.enter_context (a : Agent) : (State.enter a s).context = a := rfl
@[simp] theorem State.enter_result (a : Agent) : (State.enter a s).result = s.result := rfl
@[simp] theorem State.enter_trace (a : Agent) : (State.enter a s).trace = s.trace := rfl
@[simp] theorem State.enter_agenda (a : Agent) : (State.enter a s).agenda = s.agenda := rfl

@[simp] theorem State.leave_cfg : (State.leave s).cfg = s.cfg := rfl
@[simp] theorem State.leave_fsmState : (State.leave s).fsmState = s.fsmState := rfl
@[simp] theorem State.leave_bitIndex : (State.leave s).bitIndex = s.bitIndex := rfl
@[simp] theorem State.leave_accumulator : (State.leave s).accumulator = s.accumulator := rfl
@[simp] theorem State.leave_parityOnesCount : (State.leave s).parityOnesCount = s.parityOnesCount := rfl
@[simp] theorem State.leave_busy : (State.leave s).busy = s.busy := rfl
@[simp] theorem State.leave_lastAccepted : (State.leave s).lastAccepted = s.lastAccepted := rfl
@[simp] theorem State.leave_secondLastAccepted : (State.leave s).secondLastAccepted = s.secondLastAccepted := rfl
@[simp] theorem State.leave_storage : (State.leave s).storage = s.storage := rfl
@[simp] theorem State.leave_head : (State.leave s).head = s.head := rfl
@[simp] theorem State.leave_tail : (State.leave s).tail = s.tail := rfl
@[simp] theorem State.leave_empty : (State.leave s).empty = s.empty := rfl
@[simp] theorem State.leave_shiftHeld : (State.leave s).shiftHeld = s.shiftHeld := rfl
@[simp] theorem State.leave_capsLockOn : (State.leave s).capsLockOn = s.capsLockOn := rfl
@[simp] theorem State.leave_decPhase : (State.leave s).decPhase = s.decPhase := rfl
@[simp] theorem State.leave_edgeIrqEn : (State.leave s).edgeIrqEn = s.edgeIrqEn := rfl
@[simp] theorem State.leave_context : (State.leave s).context = .consumer := rfl
@[simp] theorem State.leave_result : (State.leave s).result = s.result := rfl
@[simp] theorem State.leave_trace : (State.leave s).trace = s.trace := rfl
@[simp] theorem State.leave_agenda : (State.leave s).agenda = s.agenda := rfl

@[simp] theorem State.setHead_cfg (i : Nat) : (State.setHead i s).cfg = s.cfg := rfl
@[simp] theorem State.setHead_fsmState (i : Nat) : (State.setHead i s).fsmState = s.fsmState := rfl
@[simp] theorem State.setHead_bitIndex (i : Nat) : (State.setHead i s).bitIndex = s.bitIndex := rfl
@[simp] theorem State.setHead_accumulator (i : Nat) : (State.setHead i s).accumulator = s.accumulator := rfl
@[simp] theorem State.setHead_parityOnesCount (i : Nat) : (State.setHead i s).parityOnesCount = s.parityOnesCount := rfl
@[simp] theorem State.setHead_busy (i : Nat) : (State.setHead i s).busy = s.busy := rfl
@[simp] theorem State.setHead_lastAccepted (i : Nat) : (State.setHead i s).lastAccepted = s.lastAccepted := rfl
@[simp] theorem State.setHead_secondLastAccepted (i : Nat) : (State.setHead i s).secondLastAccepted = s.secondLastAccepted := rfl
@[simp] theorem State.setHead_storage (i : Nat) : (State.setHead i s).storage = s.storage := rfl
@[simp] theorem State.setHead_head (i : Nat) : (State.setHead i s).head = indexOf s.cfg i := rfl
@[simp] theorem State.setHead_tail (i : Nat) : (State.setHead i s).tail = s.tail := rfl
@[simp] theorem State.setHead_empty (i : Nat) : (State.setHead i s).empty = s.empty := rfl
@[simp] theorem State.setHead_shiftHeld (i : Nat) : (State.setHead i s).shiftHeld = s.shiftHeld := rfl
@[simp] theorem State.setHead_capsLockOn (i : Nat) : (State.setHead i s).capsLockOn = s.capsLockOn := rfl
@[simp] theorem State.setHead_decPhase (i : Nat) : (State.setHead i s).decPhase = s.decPhase := rfl
@[simp] theorem State.setHead_edgeIrqEn (i : Nat) : (State.setHead i s).edgeIrqEn = s.edgeIrqEn := rfl
@[simp] theorem State.setHead_context (i : Nat) : (State.setHead i s).context = s.context := rfl
@[simp] theorem State.setHead_result (i : Nat) : (State.setHead i s).result = s.result := rfl
@[simp] theorem State.setHead_trace (i : Nat) : (State.setHead i s).trace = s.trace := rfl
@[simp] theorem State.setHead_agenda (i : Nat) : (State.setHead i s).agenda = s.agenda := rfl

@[simp] theorem State.setTail_cfg (i : Nat) : (State.setTail i s).cfg = s.cfg := rfl
@[simp] theorem State.setTail_fsmState (i : Nat) : (State.setTail i s).fsmState = s.fsmState := rfl
@[simp] theorem State.setTail_bitIndex (i : Nat) : (State.setTail i s).bitIndex = s.bitIndex := rfl
@[simp] theorem State.setTail_accumulator (i : Nat) : (State.setTail i s).accumulator = s.accumulator := rfl
@[simp] theorem State.setTail_parityOnesCount (i : Nat) : (State.setTail i s).parityOnesCount = s.parityOnesCount := rfl
@[simp] theorem State.setTail_busy (i : Nat) : (State.setTail i s).busy = s.busy := rfl
@[simp] theorem State.setTail_lastAccepted (i : Nat) : (State.setTail i s).lastAccepted = s.lastAccepted := rfl
@[simp] theorem State.setTail_secondLastAccepted (i : Nat) : (State.setTail i s).secondLastAccepted = s.secondLastAccepted := rfl
@[simp] theorem State.setTail_storage (i : Nat) : (State.setTail i s).storage = s.storage := rfl
@[simp] theorem State.setTail_head (i : Nat) : (State.setTail i s).head = s.head := rfl
@[simp] theorem State.setTail_tail (i : Nat) : (State.setTail i s).tail = indexOf s.cfg i := rfl
@[simp] theorem State.setTail_empty (i : Nat) : (State.setTail i s).empty = s.empty := rfl
@[simp] theorem State.setTail_shiftHeld (i : Nat) : (State.setTail i s).shiftHeld = s.shiftHeld := rfl
@[simp] theorem State.setTail_capsLockOn (i : Nat) : (State.setTail i s).capsLockOn = s.capsLockOn := rfl
@[simp] theorem State.setTail_decPhase (i : Nat) : (State.setTail i s).decPhase = s.decPhase := rfl
@[simp] theorem State.setTail_edgeIrqEn (i : Nat) : (State.setTail i s).edgeIrqEn = s.edgeIrqEn := rfl
@[simp] theorem State.setTail_context (i : Nat) : (State.setTail i s).context = s.context := rfl
@[simp] theorem State.setTail_result (i : Nat) : (State.setTail i s).result = s.result := rfl
@[simp] theorem State.setTail_trace (i : Nat) : (State.setTail i s).trace = s.trace := rfl
@[simp] theorem State.setTail_agenda (i : Nat) : (State.setTail i s).agenda = s.agenda := rfl

@[simp] theorem State.returning_count (r : Result) : (State.returning r s).count = s.count := rfl
@[simp] theorem State.record_count (tag : EventTag) (v : Option Byte) : (State.record tag v s).count = s.count := rfl
@[simp] theorem State.enter_count (a : Agent) : (State.enter a s).count = s.count := rfl
@[simp] theorem State.leave_count : (State.leave s).count = s.count := rfl

@[simp] theorem State.returning_full (r : Result) : (State.returning r s).full = s.full := rfl
@[simp] theorem State.record_full (tag : EventTag) (v : Option Byte) : (State.record tag v s).full = s.full := rfl
@[simp] theorem State.enter_full (a : Agent) : (State.enter a s).full = s.full := rfl
@[simp] theorem State.leave_full : (State.leave s).full = s.full := rfl

@[simp] theorem State.returning_unread (r : Result) : (State.returning r s).unread = s.unread := rfl
@[simp] theorem State.record_unread (tag : EventTag) (v : Option Byte) : (State.record tag v s).unread = s.unread := rfl
@[simp] theorem State.enter_unread (a : Agent) : (State.enter a s).unread = s.unread := rfl
@[simp] theorem State.leave_unread : (State.leave s).unread = s.unread := rfl

@[simp] theorem State.enter_consumer_of_context (h : s.context = .consumer) : s.enter .consumer = s := by
  cases s; cases h; rfl

end Sys2Proof.Machine
end

