-- ==== Sys2Proof/Laws/Queue.lean ====
section
/-! SUPPORT. The byte queue: its indices, the unread bytes, and everything pushByte, popByte and peekByte can do. -/

namespace Sys2Proof.Machine

variable {s t : State} {b : Byte}

/-- `indexWidth` bits hold every slot number (10_state.md R28). -/
theorem capacity_le_two_pow (c : Config) : c.capacity ≤ 2 ^ indexWidth c := by
  unfold indexWidth
  split
  · simpa using ‹c.capacity ≤ 1›
  · have := Nat.lt_log2_self (n := c.capacity - 1)
    omega

/-- No fewer bits do: the width is ceil(log2 N) (10_state.md R28). -/
theorem indexWidth_le {c : Config} {w : Nat} (h : c.capacity ≤ 2 ^ w) : indexWidth c ≤ w := by
  unfold indexWidth
  split
  · exact Nat.zero_le w
  · exact (Nat.log2_lt (by omega)).2 (by omega)

theorem indexOf_lt (c : Config) (i : Nat) : indexOf c i < 2 ^ indexWidth c := Nat.mod_lt _ (Nat.two_pow_pos _)

/-- A slot number is the same as an index register holds it. -/
theorem indexOf_of_lt {c : Config} {i : Nat} (h : i < c.capacity) : indexOf c i = i :=
  Nat.mod_eq_of_lt (Nat.lt_of_lt_of_le h (capacity_le_two_pow c))

@[simp] theorem indexOf_zero (c : Config) : indexOf c 0 = 0 := Nat.zero_mod _

@[simp] theorem indexOf_capacity_sub_one (c : Config) : indexOf c (c.capacity - 1) = c.capacity - 1 := by
  cases h : c.capacity with
  | zero => exact indexOf_zero c
  | succ n => exact indexOf_of_lt (by omega)

/-- The invariant keeps both indices in their width. -/
theorem QueueInv.indicesFit (hq : QueueInv s) : s.indicesFit = true := by
  simp only [State.indicesFit, Bool.and_eq_true, decide_eq_true_eq]
  exact ⟨Nat.lt_of_lt_of_le hq.head_lt (capacity_le_two_pow _), Nat.lt_of_lt_of_le hq.tail_lt (capacity_le_two_pow _)⟩

/-- A sum of two indices modulo N, as an index. -/
theorem mod_of_lt_two_mul {x n : Nat} (h : x < 2 * n) : x % n = if x < n then x else x - n := by
  split
  · exact Nat.mod_eq_of_lt ‹_›
  · rw [Nat.mod_eq_sub_mod (by omega), Nat.mod_eq_of_lt (by omega)]

theorem count_of_empty (h : s.empty = true) : s.count = 0 := by simp [State.count, h]

theorem count_of_head_le_tail (hq : QueueInv s) (he : s.empty = false) (h : s.head ≤ s.tail) :
    s.count = s.tail - s.head + 1 := by
  have ht := hq.tail_lt
  simp only [State.count, he, Bool.false_eq_true, if_false]
  rw [Int.emod_eq_of_lt (by omega) (by omega)]
  omega

theorem count_of_tail_lt_head (hq : QueueInv s) (he : s.empty = false) (h : s.tail < s.head) :
    s.count = s.tail + s.cfg.capacity - s.head + 1 := by
  have hh := hq.head_lt
  simp only [State.count, he, Bool.false_eq_true, if_false]
  rw [← Int.add_emod_right, Int.emod_eq_of_lt (by omega) (by omega)]
  omega

/-- The number of unread bytes is at most N (10_state.md R40 (a)). -/
theorem count_le_capacity (hq : QueueInv s) : s.count ≤ s.cfg.capacity := by
  have hh := hq.head_lt
  have ht := hq.tail_lt
  cases he : s.empty with
  | true => rw [count_of_empty he]; omega
  | false =>
    by_cases h : s.head ≤ s.tail
    · rw [count_of_head_le_tail hq he h]; omega
    · rw [count_of_tail_lt_head hq he (by omega)]; omega

theorem count_pos (he : s.empty = false) : 0 < s.count := by simp [State.count, he]

/-- `full` is exactly N unread bytes (41_queue.md R136). -/
theorem full_iff_count (hq : QueueInv s) : s.full = true ↔ s.count = s.cfg.capacity := by
  have hh := hq.head_lt
  have ht := hq.tail_lt
  have hn : s.next s.tail = if s.tail + 1 < s.cfg.capacity then s.tail + 1 else s.tail + 1 - s.cfg.capacity :=
    mod_of_lt_two_mul (by omega)
  cases he : s.empty with
  | true => simp [State.full, he, count_of_empty he]; omega
  | false =>
    simp only [State.full, he, Bool.not_false, Bool.true_and, beq_iff_eq]
    by_cases h : s.head ≤ s.tail
    · rw [count_of_head_le_tail hq he h, hn]; split <;> omega
    · rw [count_of_tail_lt_head hq he (by omega), hn]; split <;> omega

/-- `full` in the words of 10_state.md R31. -/
theorem full_iff : s.full = true ↔ s.empty = false ∧ (s.tail + 1) % s.cfg.capacity = s.head := by
  simp [State.full, State.next]

theorem unread_length : s.unread.length = s.count := by simp [State.unread]

/-- The slot of the first byte that is not unread is the one PUSH writes. -/
theorem slot_after_unread (hq : QueueInv s) : (s.head + s.count) % s.cfg.capacity = s.next s.tail := by
  have hh := hq.head_lt
  have ht := hq.tail_lt
  cases he : s.empty with
  | true => rw [count_of_empty he, Nat.add_zero, Nat.mod_eq_of_lt hh, State.next]; exact hq.empty_head he
  | false =>
    unfold State.next
    by_cases h : s.head ≤ s.tail
    · rw [count_of_head_le_tail hq he h]; congr 1; omega
    · rw [count_of_tail_lt_head hq he (by omega)]
      have : s.head + (s.tail + s.cfg.capacity - s.head + 1) = s.tail + 1 + s.cfg.capacity := by omega
      rw [this, Nat.add_mod_right]

/-- The slot PUSH writes holds no unread byte, unless the queue is full. -/
theorem slot_of_unread_ne (hq : QueueInv s) (hf : s.full = false) {k : Nat} (hk : k < s.count) :
    (s.head + k) % s.cfg.capacity ≠ s.next s.tail := by
  have hh := hq.head_lt
  have hc := count_le_capacity hq
  have hne : s.count ≠ s.cfg.capacity := fun h => by simp [(full_iff_count hq).2 h] at hf
  rw [← slot_after_unread hq, mod_of_lt_two_mul (by omega), mod_of_lt_two_mul (by omega)]
  split <;> split <;> omega

theorem next_lt (hc : 1 ≤ s.cfg.capacity) (i : Nat) : s.next i < s.cfg.capacity := Nat.mod_lt _ hc

/-- The unread bytes of a queue that is not empty: the byte at `head`, and the rest. -/
theorem unread_of_nonempty (hq : QueueInv s) (he : s.empty = false) :
    s.unread = Memory.read s.storage s.head ::
      (List.range (s.count - 1)).map fun k => Memory.read s.storage ((s.head + 1 + k) % s.cfg.capacity) := by
  have hp := count_pos he
  have hcount : s.count = (s.count - 1) + 1 := by omega
  unfold State.unread
  rw [hcount, List.range_succ_eq_map]
  simp [Nat.mod_eq_of_lt hq.head_lt, Function.comp_def, Nat.add_assoc, Nat.add_comm 1]

theorem unread_of_empty (he : s.empty = true) : s.unread = [] := by simp [State.unread, count_of_empty he]

theorem unread_eq_nil_iff : s.unread = [] ↔ s.empty = true := by
  rw [← List.length_eq_zero_iff, unread_length]
  cases he : s.empty with
  | true => simp [count_of_empty he]
  | false => have := count_pos he; simp; omega

/-! ## PUSH -/

/-- The state after a PUSH that stored `b`. -/
def pushed (b : Byte) (s : State) : State :=
  { s with storage := Memory.write s.storage (s.next s.tail) b, tail := s.next s.tail, empty := false }

/-- Everything PUSH can do: reject on a full queue, or store (41_queue.md R131). -/
theorem pushByte_eq (hc : 1 ≤ s.cfg.capacity) :
    pushByte b s = if s.full then .ok (false, s) else .ok (true, pushed b s) := by
  unfold pushByte
  split
  · rfl
  · simp [State.writeSlot, next_lt hc, pushed, State.setTail, indexOf_of_lt]

theorem pushed_queueInv (hq : QueueInv s) : QueueInv (pushed b s) where
  head_lt := hq.head_lt
  tail_lt := next_lt (by have := hq.head_lt; omega) _
  empty_head := by simp [pushed]

theorem pushed_storageInv (hc : 1 ≤ s.cfg.capacity) (hs : StorageInv s) : StorageInv (pushed b s) where
  wf := Memory.wf_write hs.wf
  within := Memory.within_write hs.within (next_lt hc _)

theorem pushed_count (hq : QueueInv s) (hf : s.full = false) : (pushed b s).count = s.count + 1 := by
  have hh := hq.head_lt
  have ht := hq.tail_lt
  have hq' := pushed_queueInv (b := b) hq
  have hne : s.count ≠ s.cfg.capacity := fun h => by simp [(full_iff_count hq).2 h] at hf
  have hn : s.next s.tail = if s.tail + 1 < s.cfg.capacity then s.tail + 1 else s.tail + 1 - s.cfg.capacity :=
    mod_of_lt_two_mul (by omega)
  have htail : (pushed b s).tail = s.next s.tail := rfl
  have hhead : (pushed b s).head = s.head := rfl
  have hcap : (pushed b s).cfg.capacity = s.cfg.capacity := rfl
  have hslot := slot_after_unread hq
  rw [mod_of_lt_two_mul (by have := count_le_capacity hq; omega)] at hslot
  by_cases h : (pushed b s).head ≤ (pushed b s).tail
  · rw [count_of_head_le_tail hq' rfl h, htail, hhead]
    rw [htail, hhead] at h
    have := count_le_capacity hq
    split at hslot <;> omega
  · rw [count_of_tail_lt_head hq' rfl (by omega), htail, hhead, hcap]
    rw [htail, hhead] at h
    have := count_le_capacity hq
    split at hslot <;> omega

/-- A stored byte joins the unread bytes at the end, and every one of them stays (41_queue.md R135). -/
theorem pushed_unread (hq : QueueInv s) (hs : StorageInv s) (hf : s.full = false) :
    (pushed b s).unread = s.unread ++ [b] := by
  unfold State.unread
  rw [pushed_count hq hf, List.range_succ, List.map_append]
  have hold : ∀ k ∈ List.range s.count,
      Memory.read (pushed b s).storage (((pushed b s).head + k) % (pushed b s).cfg.capacity) =
        Memory.read s.storage ((s.head + k) % s.cfg.capacity) := fun k hk =>
    Memory.read_write_other (slot_of_unread_ne hq hf (List.mem_range.1 hk))
  rw [List.map_congr_left hold]
  simp only [List.map_cons, List.map_nil, List.append_cancel_left_eq, List.cons.injEq, and_true]
  show Memory.read (Memory.write s.storage (s.next s.tail) b) ((s.head + s.count) % s.cfg.capacity) = b
  rw [slot_after_unread hq]
  exact Memory.read_write_same hs.wf

/-! ## POP and PEEK -/

/-- The state after a POP that removed a byte. -/
def popped (s : State) : State := { s with empty := s.head == s.tail, head := s.next s.head }

/-- Everything POP can do: nothing on an empty queue, or remove the byte at `head` (41_queue.md R132). -/
theorem popByte_eq (hh : s.head < s.cfg.capacity) :
    popByte s = if s.empty then .ok (none, s) else .ok (some (Memory.read s.storage s.head), popped s) := by
  unfold popByte
  split
  · rfl
  · simp [State.readSlot, hh, popped, State.setHead, indexOf_of_lt, next_lt (Nat.lt_of_le_of_lt (Nat.zero_le _) hh)]

/-- Everything PEEK can do (41_queue.md R133). -/
theorem peekByte_eq (hh : s.head < s.cfg.capacity) :
    peekByte s = if s.empty then .ok none else .ok (some (Memory.read s.storage s.head)) := by
  unfold peekByte
  split
  · rfl
  · simp [State.readSlot, hh]

theorem popped_queueInv (hq : QueueInv s) : QueueInv (popped s) where
  head_lt := next_lt (by have := hq.head_lt; omega) _
  tail_lt := hq.tail_lt
  empty_head := by
    intro h
    have : s.head = s.tail := by simpa [popped] using h
    show s.next s.head = (s.tail + 1) % s.cfg.capacity
    rw [State.next, this]

theorem popped_count (hq : QueueInv s) (he : s.empty = false) : (popped s).count = s.count - 1 := by
  have hh := hq.head_lt
  have ht := hq.tail_lt
  have hq' := popped_queueInv hq
  by_cases heq : s.head = s.tail
  · rw [count_of_empty (by simp [popped, heq]), count_of_head_le_tail hq he (by omega)]; omega
  · have he' : (popped s).empty = false := by simp [popped, heq]
    have hn : (popped s).head =
        if s.head + 1 < s.cfg.capacity then s.head + 1 else s.head + 1 - s.cfg.capacity :=
      mod_of_lt_two_mul (by omega)
    have htail : (popped s).tail = s.tail := rfl
    have hcap : (popped s).cfg.capacity = s.cfg.capacity := rfl
    by_cases h : s.head ≤ s.tail
    · rw [count_of_head_le_tail hq he h]
      rw [count_of_head_le_tail hq' he' (by rw [hn]; split <;> omega), hn, htail]; split <;> omega
    · rw [count_of_tail_lt_head hq he (by omega)]
      by_cases hw : s.head + 1 < s.cfg.capacity
      · rw [count_of_tail_lt_head hq' he' (by rw [hn, if_pos hw]; omega), hn, if_pos hw, htail, hcap]; omega
      · rw [count_of_head_le_tail hq' he' (by rw [hn, if_neg hw]; omega), hn, if_neg hw, htail]; omega

/-- A POP removes the first unread byte and no other (41_queue.md R135). -/
theorem popped_unread (hq : QueueInv s) (he : s.empty = false) : (popped s).unread = s.unread.tail := by
  rw [unread_of_nonempty hq he]
  unfold State.unread
  rw [popped_count hq he, List.tail_cons]
  refine List.map_congr_left fun k _ => ?_
  show Memory.read s.storage ((s.next s.head + k) % s.cfg.capacity) = _
  rw [State.next, Nat.mod_add_mod]

theorem unread_head? (hq : QueueInv s) :
    s.unread.head? = if s.empty then none else some (Memory.read s.storage s.head) := by
  cases he : s.empty with
  | true => simp [unread_of_empty he]
  | false => simp [unread_of_nonempty hq he]

end Sys2Proof.Machine
end

