-- ==== Sys2Proof/Laws/Exec.lean ====
section
/-! SUPPORT. What each meaning answers: when it gives a next state, a fault or a refusal, and the state it gives. -/

namespace Sys2Proof.Machine

variable {s t : State} {i : Instr} {e : Except Fault State} {d : BitVec 1} {b : Byte}

theorem issued_eq_next : issued i s e = .next t ↔ s.context = issuer i ∧ e = .ok t := by
  unfold issued
  split <;> (try cases e) <;> simp_all

theorem issued_eq_refused {r : Refusal} : issued i s e = .refused r ↔ s.context ≠ issuer i ∧ r = .wrongContext := by
  unfold issued
  split <;> (try cases e) <;> simp_all [eq_comm]

theorem issued_eq_fault {f : Fault} : issued i s e = .fault f ↔ s.context = issuer i ∧ e = .error f := by
  unfold issued
  split <;> (try cases e) <;> simp_all

theorem issued_ok (h : s.context = issuer i) : issued i s (.ok t) = .next t := issued_eq_next.2 ⟨h, rfl⟩

/-- The only refusal of a meaning is WRONG_CONTEXT, and it answers it exactly to the wrong agent. -/
theorem exec_eq_refused {r : Refusal} : exec i s = .refused r ↔ s.context ≠ issuer i ∧ r = .wrongContext := by
  cases i <;>
    simp only [exec, execEdge, execPush, execPop, execPeek, execIsempty, execGetkey, execIsbusy, execInit,
      issued_eq_refused]

theorem context_of_exec_next (h : exec i s = .next t) : s.context = issuer i := by
  cases i <;>
    simp only [exec, execEdge, execPush, execPop, execPeek, execIsempty, execGetkey, execIsbusy, execInit,
      issued_eq_next] at h <;>
    exact h.1

/-! ## The framer -/

/-- The history moved for an accepted byte. -/
def historyMoved (s : State) : State :=
  { s with secondLastAccepted := s.lastAccepted, lastAccepted := s.accumulator }

/-- Everything an accepted byte does: a full queue drops it, or it is stored (40_framer.md R104). -/
theorem acceptByte_eq (hc : 1 ≤ s.cfg.capacity) :
    acceptByte s = .ok (if s.full then (historyMoved s).record .queueFull (some s.accumulator)
      else (pushed s.accumulator (historyMoved s)).record .accepted (some s.accumulator)) := by
  have hf : (historyMoved s).full = s.full := rfl
  have hp := pushByte_eq (s := historyMoved s) (b := s.accumulator) hc
  rw [hf] at hp
  unfold acceptByte
  rw [show { s with secondLastAccepted := s.lastAccepted, lastAccepted := s.accumulator } = historyMoved s from rfl, hp]
  cases s.full <;> rfl

/-- Everything AWAIT_STOP does before it returns to AWAIT_START. -/
def stopChecked (d : BitVec 1) (s : State) : State :=
  if d = 1#1 then
    if s.suppress s.accumulator then s.record .suppressed (some s.accumulator)
    else if s.full then (historyMoved s).record .queueFull (some s.accumulator)
    else (pushed s.accumulator (historyMoved s)).record .accepted (some s.accumulator)
  else s.record .stopFail (some s.accumulator)

theorem checkStop_eq (hc : 1 ≤ s.cfg.capacity) : checkStop d s = .ok (stopChecked d s) := by
  unfold checkStop stopChecked
  split
  · split
    · rfl
    · exact acceptByte_eq hc
  · rfl

/-- One framer step as a state (40_framer.md R100). -/
def framed (d : BitVec 1) (s : State) : State :=
  match s.fsmState with
  | .awaitStart => edgeAwaitStart d s
  | .receivingBits => edgeReceivingBits d s
  | .awaitParity => edgeAwaitParity d s
  | .awaitStop => { stopChecked d s with fsmState := .awaitStart, busy := false }

theorem framerStep_eq (hc : 1 ≤ s.cfg.capacity) : framerStep d s = .ok (framed d s) := by
  unfold framerStep framed
  cases s.fsmState <;> simp [edgeAwaitStop, checkStop_eq hc]

/-- A serviced EDGE completes (40_framer.md R100). -/
theorem execEdge_eq (hc : 1 ≤ s.cfg.capacity) (hx : s.context = .producer) (he : s.edgeIrqEn = true) :
    exec (.edge d) s = .next ((framed d s).returning .nothing) := by
  show issued (.edge d) s _ = _
  rw [if_pos he, edgeServiced, framerStep_eq hc]
  exact issued_ok hx

theorem execEdge_disabled (hx : s.context = .producer) (he : s.edgeIrqEn = false) :
    exec (.edge d) s = .next s := by
  show issued (.edge d) s _ = _
  rw [if_neg (by simp [he])]
  exact issued_ok hx

/-! ## The queue -/

theorem execPush_eq (hc : 1 ≤ s.cfg.capacity) (hx : s.context = .producer) :
    exec (.push b) s =
      .next (if s.full then s.returning (.bool false) else (pushed b s).returning (.bool true)) := by
  show issued (.push b) s _ = _
  rw [pushByte_eq hc]
  cases s.full <;> exact issued_ok hx

theorem execPop_eq (hh : s.head < s.cfg.capacity) (hx : s.context = .consumer) :
    exec .pop s =
      .next (if s.empty then s.returning (.byte none)
        else (popped s).returning (.byte (some (Memory.read s.storage s.head)))) := by
  show issued .pop s _ = _
  rw [popByte_eq hh]
  cases s.empty <;> exact issued_ok hx

theorem execPeek_eq (hh : s.head < s.cfg.capacity) (hx : s.context = .consumer) :
    exec .peek s =
      .next (s.returning (.byte (if s.empty then none else some (Memory.read s.storage s.head)))) := by
  show issued .peek s _ = _
  rw [peekByte_eq hh]
  cases s.empty <;> exact issued_ok hx

theorem execIsempty_eq (hx : s.context = .consumer) : exec .isempty s = .next (s.returning (.bool s.empty)) :=
  issued_ok hx

/-! ## The decoder and the facade -/

/-- Everything GETKEY can do in its first phase (42_decoder.md R151). -/
theorem execGetkey_idle (hh : s.head < s.cfg.capacity) (hx : s.context = .consumer) (hp : s.decPhase = .idle) :
    exec .getkey s =
      .next (if s.empty then s.returning (.byte none)
        else decodeMake (Memory.read s.storage s.head) (popped s)) := by
  show issued .getkey s _ = _
  rw [hp]
  simp only [getkeyPhaseOne, popByte_eq hh]
  cases s.empty <;> exact issued_ok hx

/-- Everything GETKEY can do in its second phase (42_decoder.md R151, R154). -/
theorem execGetkey_afterBreak (hh : s.head < s.cfg.capacity) (hx : s.context = .consumer)
    (hp : s.decPhase = .afterBreak) :
    exec .getkey s =
      .next (if s.empty then decodeBreak none s
        else decodeBreak (some (Memory.read s.storage s.head)) (popped s)) := by
  show issued .getkey s _ = _
  rw [hp]
  simp only [getkeyPhaseTwo, popByte_eq hh]
  cases s.empty <;> exact issued_ok hx

theorem execIsbusy_eq (hx : s.context = .consumer) : exec .isbusy s = .next (s.returning (.bool s.busyOrEmpty)) :=
  issued_ok hx

/-- Everything INIT writes, register by register (43_facade.md R171). -/
theorem initialized_eq (s : State) :
    initialized s =
      { s with
        fsmState := .awaitStart, bitIndex := 0, accumulator := 0, parityOnesCount := 0, busy := false,
        lastAccepted := s.cfg.lastReset, secondLastAccepted := s.cfg.lastReset,
        head := 0, tail := s.cfg.capacity - 1, empty := true,
        shiftHeld := false, capsLockOn := false, decPhase := .idle, edgeIrqEn := true } := by
  simp [initialized, State.setTail, State.setHead]

theorem execInit_eq (hx : s.context = .consumer) : exec .init s = .next ((initialized s).returning .nothing) :=
  issued_ok hx

end Sys2Proof.Machine
end

