-- ==== Sys2Proof/Laws/PerInstr.lean ====
section
/-! SUPPORT. What holds of every operation as syntax, one lemma for each constructor. -/

namespace Sys2Proof.Laws.SelectsItsRow

/-- The word of an operation selects the operation's own row of the opcode map: `(w & mask) = match`, and the opcode
is the match value's upper byte (30_encoding.md R73). -/
def Statement (i : Instr) : Prop := encode i &&& rowMask i = rowMatch i ∧ opcodeOf (rowMatch i) = opcode i

theorem edge (d : BitVec 1) : Statement (.edge d) := ⟨by revert d; decide, by simp only [rowMatch, opcode]; decide⟩

theorem push (b : Byte) : Statement (.push b) := by
  refine ⟨?_, by simp only [rowMatch, opcode]; decide⟩
  simp only [encode, opcode, argument, rowMask, rowMatch]
  ext k hk
  interval_cases k <;> simp

theorem pop : Statement .pop := ⟨by decide, by decide⟩
theorem peek : Statement .peek := ⟨by decide, by decide⟩
theorem isempty : Statement .isempty := ⟨by decide, by decide⟩
theorem getkey : Statement .getkey := ⟨by decide, by decide⟩
theorem isbusy : Statement .isbusy := ⟨by decide, by decide⟩
theorem init : Statement .init := ⟨by decide, by decide⟩

end Sys2Proof.Laws.SelectsItsRow
end

