-- ==== Sys2Proof/Laws/Step.lean ====
section
/-! SUPPORT. Everything the fetch and the step can do. -/

namespace Sys2Proof.Machine

variable {s t u : State} {i : Instr}

theorem leaving_eq_next {o : Host.Outcome State Fault Refusal} :
    leaving o = .next t ↔ ∃ v, o = .next v ∧ t = v.leave := by
  cases o <;> simp [leaving, eq_comm]

theorem leaving_eq_fault {o : Host.Outcome State Fault Refusal} {f : Fault} :
    leaving o = .fault f ↔ o = .fault f := by
  cases o <;> simp [leaving]

theorem leaving_eq_refused {o : Host.Outcome State Fault Refusal} {r : Refusal} :
    leaving o = .refused r ↔ o = .refused r := by
  cases o <;> simp [leaving]

/-- A fetched operation runs in the state with its issuer's context and a shorter or the same agenda. -/
theorem fetch_run (h : fetch s = .run i u) : ∃ a rest, u = { s with context := a, agenda := rest } := by
  unfold fetch at h
  split at h
  · split at h
    · simp only [resumeGetkey, Fetched.run.injEq] at h
      exact ⟨.consumer, s.agenda, h.2.symm⟩
    · simp at h
  · split at h
    · simp only [resumeGetkey, Fetched.run.injEq] at h
      exact ⟨.consumer, _, h.2.symm⟩
    · simp at h
  · split at h
    · simp only [resumeGetkey, Fetched.run.injEq] at h
      exact ⟨.consumer, s.agenda, h.2.symm⟩
    · unfold fetchIssue at h
      split at h
      · simp only [Fetched.run.injEq] at h
        exact ⟨_, _, h.2.symm⟩
      · simp at h

/-- A turn with nothing to do changes the agenda at most. -/
theorem fetch_idle (h : fetch s = .idle u) : ∃ rest, u = { s with agenda := rest } := by
  unfold fetch at h
  split at h
  · split at h
    · simp [resumeGetkey] at h
    · simp only [Fetched.idle.injEq] at h
      exact ⟨s.agenda, h.symm⟩
  · split at h
    · simp [resumeGetkey] at h
    · simp only [Fetched.idle.injEq] at h
      exact ⟨_, h.symm⟩
  · split at h
    · simp [resumeGetkey] at h
    · unfold fetchIssue at h
      split at h <;> simp at h

/-- Everything a step that gives a next state can do: run an operation, or let a turn pass. -/
theorem step_cases (h : step s = .next t) :
    (∃ i a rest v, exec i { s with context := a, agenda := rest } = .next v ∧ t = v.leave) ∨
    (∃ rest, t = { s with agenda := rest }) := by
  unfold step at h
  split at h
  · rename_i i u hf
    obtain ⟨a, rest, rfl⟩ := fetch_run hf
    obtain ⟨v, hv, rfl⟩ := leaving_eq_next.1 h
    exact .inl ⟨i, a, rest, v, hv, rfl⟩
  · simp at h
  · rename_i u hf
    obtain ⟨rest, rfl⟩ := fetch_idle hf
    cases h
    exact .inr ⟨rest, rfl⟩

end Sys2Proof.Machine
end

