-- ==== Sys2Proof/Tests/Slice0.lean ====
section
/-! SUPPORT. The model's own tests, and for every statement with hypotheses a state that meets them. -/

namespace Sys2Proof.Tests

open Sys2Proof.Machine

/-! ## Helpers -/

/-- The defaults of 95_test_vectors.md with another capacity. -/
def cfgOf (n : Nat) : Config := { Config.default with capacity := n }

/-- The defaults with N = 3 and the LATCH policy. -/
def latchCfg : Config := { cfgOf 3 with busyParityPolicy := .latch }

/-- The state right after INIT, with an empty queue (70_reset_and_hazards.md R200). -/
def ready (n : Nat) : State := { State.powerOn (cfgOf n) with edgeIrqEn := true }

/-- After INIT with N = 3, the queue loaded from slot 0 (`n + 1` unread bytes). -/
def loaded (m : Memory) (n : Nat) : State := { ready 3 with storage := m, tail := n, empty := false }

/-- A state as the producer sees it. -/
def asProducer (s : State) : State := { s with context := .producer }

/-- A field of the next state, if there is one. -/
def seen {α : Type} (o : Host.Outcome State Fault Refusal) (f : State → α) : Option α :=
  match o with
  | .next t => some (f t)
  | .fault _ => none
  | .refused _ => none

/-- The refusal of an outcome, if it is one. -/
def refusal (o : Host.Outcome State Fault Refusal) : Option Refusal :=
  match o with
  | .next _ => none
  | .fault _ => none
  | .refused r => some r

/-- Indices and sentinel as the queue vectors write them. -/
def pointers (s : State) : Nat × Nat × Bool := (s.head, s.tail, s.empty)

/-! ## Well-formedness: for each check, an ill-formed term it refuses -/

theorem test_wf_default : Config.default.wf = true := by decide
theorem test_wf_profile : Config.profileSet2Us.wf = true := by decide
theorem test_wf_capacity_zero : (cfgOf 0).wf = false := by decide
theorem test_wf_unshifted : Config.wf { Config.default with unshifted := Table.ofList 0 [(0x1C, 0x62)] } = false := by
  decide
theorem test_wf_shifted : Config.wf { Config.default with shifted := Table.ofList 0 [(0x1C, 0x61)] } = false := by
  decide
theorem test_wf_edge : Source.wf (.edge 2) = false ∧ Source.wf (.edge 1) = true := by decide
theorem test_wf_push : Source.wf (.push 256) = false ∧ Source.wf (.push 255) = true := by decide
theorem test_wf_frame : Source.wf (.frame 256) = false ∧ Source.wf (.frame 255) = true := by decide
theorem test_wf_frame_badpar : Source.wf (.frameBadpar 256) = false ∧ Source.wf (.frameBadpar 0) = true := by decide
theorem test_wf_frame_badstop : Source.wf (.frameBadstop 256) = false ∧ Source.wf (.frameBadstop 0) = true := by decide
theorem test_wf_no_operand :
    [Source.pop, .peek, .isempty, .getkey, .isbusy, .init, .idle, .decode].all Source.wf = true := by decide

/-! ## Decoding: words written out from the formats of 30_encoding.md R71 and the opcodes of R73 -/

/-- F-BIT, opcode 00000001, seven zeros, d. -/
theorem test_decode_edge :
    decode 0b00000001_0000000_0 = .instr (.edge 0) ∧ decode 0b00000001_0000000_1 = .instr (.edge 1) := by decide

/-- F-BYTE, opcode 00000010, b[7:0]: 0xF0 (R79) and 0x1C (R131). -/
theorem test_decode_push :
    decode 0b00000010_11110000 = .instr (.push 0xF0) ∧ decode 0b00000010_00011100 = .instr (.push 0x1C) := by decide

/-- F-NONE, opcode 00000011. -/
theorem test_decode_pop : decode 0b00000011_00000000 = .instr .pop := by decide
/-- F-NONE, opcode 00000100. -/
theorem test_decode_peek : decode 0b00000100_00000000 = .instr .peek := by decide
/-- F-NONE, opcode 00000101. -/
theorem test_decode_isempty : decode 0b00000101_00000000 = .instr .isempty := by decide
/-- F-NONE, opcode 00000110. -/
theorem test_decode_getkey : decode 0b00000110_00000000 = .instr .getkey := by decide
/-- F-NONE, opcode 00000111. -/
theorem test_decode_isbusy : decode 0b00000111_00000000 = .instr .isbusy := by decide
/-- F-NONE, opcode 00001000. -/
theorem test_decode_init : decode 0b00001000_00000000 = .instr .init := by decide

/-- The opcode table's numbering is the word's: one word, bit 0 its least significant bit. -/
theorem test_decode_table_word :
    decodeTableWord 16 0x0101 = some (.edge 1) ∧ decodeTableWord 16 0x02FF = some (.push 0xFF) ∧
    decodeTableWord 16 0x0800 = some .init ∧ decodeTableWord 16 0x0102 = none ∧ decodeTableWord 32 0x0800 = none := by
  decide

/-- R79: the words of FRAME 0x1C and FRAME 0x12. -/
theorem test_frame_words :
    (frame 0x1C).map encode =
      [0x0100, 0x0100, 0x0100, 0x0101, 0x0101, 0x0101, 0x0100, 0x0100, 0x0100, 0x0100, 0x0101] ∧
    (frame 0x12).map encode =
      [0x0100, 0x0100, 0x0101, 0x0100, 0x0100, 0x0101, 0x0100, 0x0100, 0x0100, 0x0101, 0x0101] := by decide

/-- R77, R78: IDLE and DECODE, an implied issuer, a tag, and an operand out of range. -/
theorem test_assemble :
    assemble ⟨none, .idle⟩ = some [.issue .producer 0x0101] ∧
    assemble ⟨none, .decode⟩ = some [.issue .consumer 0x0600, .resume] ∧
    assemble ⟨some .consumer, .edge 1⟩ = some [.issue .consumer 0x0101] ∧
    assemble ⟨none, .push 0xF0⟩ = some [.issue .producer 0x02F0] ∧
    assemble ⟨none, .push 256⟩ = none := by decide

/-- Vectors X15, X16, X17, X3 and X14: the refusals, in the order of 60_exceptions.md R182. -/
theorem test_refusals :
    refusal (step { ready 3 with agenda := [.issue .consumer 0x0101] }) = some .wrongContext ∧
    refusal (step { ready 3 with agenda := [.issue .producer 0x0300] }) = some .wrongContext ∧
    refusal (step { ready 3 with agenda := [.issue .producer 0x0302] }) = some .nonzeroMbz ∧
    refusal (step { ready 3 with agenda := [.issue .producer 0x0102] }) = some .nonzeroMbz ∧
    refusal (step { ready 3 with agenda := [.issue .consumer 0xFFFF] }) = some .reservedOpcode := by decide

/-- 00_scope.md R12; the third is line 9 of program P6: SOME 0x00 is not NONE. -/
theorem test_result_words :
    (Result.bool true).word = some 0x001 ∧ (Result.bool false).word = some 0x000 ∧
    (Result.byte (some 0x00)).word = some 0x100 ∧ (Result.byte none).word = some 0x000 ∧
    (Result.byte (some 0x41)).word = some 0x141 ∧ Result.nothing.word = none := by decide

/-- 10_state.md R21 and 60_exceptions.md R181: the numbers of the states and of the tags. -/
theorem test_codes :
    [FsmState.awaitStart, .receivingBits, .awaitParity, .awaitStop].map FsmState.code = [0, 1, 2, 3] ∧
    [EventTag.noise, .parityFail, .stopFail, .suppressed, .queueFull, .accepted].map EventTag.code =
      [0, 1, 2, 3, 4, 5] := by decide

/-- 10_state.md R28: ceil(log2 N), 5 for N = 20; and what a register of that width holds. -/
theorem test_index_width :
    [1, 2, 3, 4, 5, 16, 17, 20, 32, 33].map (fun n => indexWidth (cfgOf n)) = [0, 1, 2, 2, 3, 4, 5, 5, 5, 6] ∧
    indexOf (cfgOf 20) 19 = 19 ∧ indexOf (cfgOf 20) 32 = 0 := by decide

/-- The first step after power-on runs the word that is put in front of it. -/
theorem test_fetch_word :
    seen (step (State.reset.withFetchWord 16 0x0100)) (·.fsmState) = some .receivingBits ∧
    seen (step (State.reset.withFetchWord 16 0x021C)) (·.result) = some (.bool true) ∧
    seen (step (State.reset.withFetchWord 16 0x0300)) (·.result) = some (.byte none) ∧
    seen (step (State.reset.withFetchWord 16 0x0700)) (·.result) = some (.bool true) ∧
    seen (step (State.reset.withFetchWord 16 0x0800)) (·.edgeIrqEn) = some true ∧
    refusal (step (State.reset.withFetchWord 16 0x0900)) = some .reservedOpcode := by decide

/-- The profile after 42_decoder.md R158: M and m at 0x3A, ? and / at 0x4A, TAB at 0x0D, nothing at 0x7F. -/
theorem test_profile :
    Config.profileSet2Us.unshifted[0x3A] = 0x6D#8 ∧ Config.profileSet2Us.shifted[0x3A] = 0x4D#8 ∧
    Config.profileSet2Us.unshifted[0x4A] = 0x2F#8 ∧ Config.profileSet2Us.shifted[0x4A] = 0x3F#8 ∧
    Config.profileSet2Us.shifted[0x0D] = 0x09#8 ∧ Config.profileSet2Us.unshifted[0x7F] = 0x00#8 := by decide

/-! ## One step of each operation, from the vectors of 95_test_vectors.md -/

/-- A frame of 0x1C after its eight data bits (F1, step 9) under a configuration. -/
def afterData (c : Config) : State :=
  { State.powerOn c with
    edgeIrqEn := true, context := .producer, fsmState := .awaitParity, accumulator := 0x1C, parityOnesCount := 3,
    busy := true }

/-- F1, step 11: the stop bit queues 0x1C. -/
theorem test_edge_stop :
    let o := exec (.edge 1) { afterData (cfgOf 20) with fsmState := .awaitStop }
    seen o (fun t => (t.fsmState, t.busy, t.trace)) = some (.awaitStart, false, [⟨.accepted, some 0x1C⟩]) ∧
    seen o (fun t => (t.lastAccepted, t.secondLastAccepted, t.unread)) = some (0x1C, 0x00, [0x1C]) := by decide

/-- F3, step 10: the wrong parity bit, under CLEAR and under LATCH. -/
theorem test_edge_parity_fail :
    seen (exec (.edge 1) (afterData (cfgOf 20))) (fun t => (t.fsmState, t.busy, t.trace)) =
      some (.awaitStart, false, [⟨.parityFail, some 0x1C⟩]) ∧
    seen (exec (.edge 1) (afterData latchCfg)) (fun t => (t.fsmState, t.busy, t.accumulator)) =
      some (.awaitStart, true, 0x1C) := by decide

/-- Q7: a full queue. -/
theorem test_push_full :
    seen (exec (.push 0xA4) (asProducer (loaded [(0, 0xA1), (1, 0xA2), (2, 0xA3)] 2)))
      (fun t => (t.result, pointers t, t.unread)) =
    some (.bool false, (0, 2, false), [0xA1, 0xA2, 0xA3]) := by decide

/-- Q10: the byte goes to slot 0. -/
theorem test_push_wrap :
    seen (exec (.push 0xA4)
      (asProducer { loaded [(0, 0xA1), (1, 0xA2), (2, 0xA3)] 2 with head := 1 }))
      (fun t => (t.result, pointers t, t.unread)) =
    some (.bool true, (1, 0, false), [0xA2, 0xA3, 0xA4]) := by decide

/-- Q12: `head` wraps. -/
theorem test_pop_wrap :
    seen (exec .pop { loaded [(0, 0xA4), (1, 0xA2), (2, 0xA3)] 0 with head := 2 })
      (fun t => (t.result.word, pointers t, t.unread)) =
    some (some 0x1A3, (0, 0, false), [0xA4]) := by decide

/-- Q13: the last byte. -/
theorem test_pop_last :
    seen (exec .pop (loaded [(0, 0xA4), (1, 0xA2), (2, 0xA3)] 0)) (fun t => (t.result.word, pointers t)) =
    some (some 0x1A4, (1, 0, true)) := by decide

/-- Q8: the oldest byte stays. -/
theorem test_peek :
    seen (exec .peek (loaded [(0, 0xA1), (1, 0xA2), (2, 0xA3)] 2)) (fun t => (t.result.word, pointers t)) =
    some (some 0x1A1, (0, 2, false)) := by decide

/-- Q2: an empty queue. -/
theorem test_peek_empty : seen (exec .peek (ready 3)) (·.result.word) = some (some 0x000) := by decide

/-- Q3, and the same after Q4. -/
theorem test_isempty :
    seen (exec .isempty (ready 3)) (·.result.word) = some (some 0x001) ∧
    seen (exec .isempty (loaded [(0, 0xA1)] 0)) (·.result.word) = some (some 0x000) := by decide

/-- K1 to K4: the four rows of the table selection. -/
theorem test_getkey_rows :
    seen (exec .getkey (loaded [(0, 0x1C)] 0)) (·.result.word) = some (some 0x161) ∧
    seen (exec .getkey { loaded [(0, 0x1C)] 0 with shiftHeld := true }) (·.result.word) = some (some 0x141) ∧
    seen (exec .getkey { loaded [(0, 0x1C)] 0 with capsLockOn := true }) (·.result.word) = some (some 0x141) ∧
    seen (exec .getkey { loaded [(0, 0x1C)] 0 with shiftHeld := true, capsLockOn := true }) (·.result.word) =
      some (some 0x161) := by decide

/-- The second phase of K9 and of K13, and the order of the tests: K24 (the caps code is a shift code) and K25 (the
break marker is a shift code). -/
theorem test_getkey_break_and_order :
    seen (exec .getkey
      { loaded [(0, 0xF0), (1, 0x12)] 1 with head := 1, shiftHeld := true, decPhase := .afterBreak })
      (fun t => (t.result.word, t.shiftHeld, t.decPhase, t.unread)) = some (some 0x000, false, .idle, []) ∧
    seen (exec .getkey { ready 3 with shiftHeld := true, decPhase := .afterBreak })
      (fun t => (t.result.word, t.shiftHeld, t.decPhase)) = some (some 0x000, true, .idle) ∧
    seen (exec .getkey { loaded [(0, 0x59)] 0 with cfg := { cfgOf 3 with capsCode := 0x59 } })
      (fun t => (t.shiftHeld, t.capsLockOn, t.result)) = some (true, false, .byte none) ∧
    seen (exec .getkey { loaded [(0, 0x12)] 0 with cfg := { cfgOf 3 with breakCode := 0x12 } })
      (fun t => (t.decPhase, t.shiftHeld)) = some (.afterBreak, false) := by decide

/-- A4 and A5: a byte queued, then a frame in flight as well. -/
theorem test_isbusy :
    seen (exec .isbusy (loaded [(0, 0x1C)] 0)) (·.result.word) = some (some 0x000) ∧
    seen (exec .isbusy { loaded [(0, 0x1C)] 0 with fsmState := .receivingBits, busy := true }) (·.result.word) =
      some (some 0x001) := by decide

/-- A2: an empty queue. -/
theorem test_isbusy_empty : seen (exec .isbusy (ready 20)) (·.result.word) = some (some 0x001) := by decide

/-- A8: INIT in the middle of a frame. -/
theorem test_init_in_frame :
    seen (exec .init { ready 20 with fsmState := .receivingBits, bitIndex := 1, accumulator := 0x01, busy := true })
      (fun t => (t.fsmState, t.busy, t.bitIndex, t.accumulator)) = some (.awaitStart, false, 0, 0x00) := by decide

/-- A7: the second INIT discards the queue and the latch; Q0: the pointers for N = 3. The storage is not written. -/
theorem test_init_discards :
    seen (exec .init { loaded [(0, 0x12), (1, 0x1C)] 1 with head := 1, shiftHeld := true })
      (fun t => (pointers t, t.shiftHeld, t.edgeIrqEn, t.storage)) =
    some ((0, 2, true), false, true, [(0, 0x12), (1, 0x1C)]) := by decide

/-! ## Witnesses: for every statement with hypotheses, states and operands that meet them -/

/-- A state at rest in which the invariant is easily seen to hold. -/
theorem inv_at_rest (s : State) (hc : s.cfg.wf = true) (hf : s.fsmState = .awaitStart) (hi : s.bitIndex = 0)
    (hb : s.busy = false) (hh : s.head < s.cfg.capacity) (ht : s.tail < s.cfg.capacity)
    (he : s.empty = true → s.head = (s.tail + 1) % s.cfg.capacity) (hw : Memory.wf s.storage = true)
    (hn : Memory.within s.storage s.cfg.capacity = true) (hx : s.context = .consumer) : Inv s where
  block :=
    { cfg := hc
      framer :=
        { index_zero := fun _ => hi
          receiving_ones := fun h => by simp [hf] at h
          receiving_rest := fun h => by simp [hf] at h
          received_ones := fun h => by simp [hf] at h
          busy_in_frame := fun h => absurd hf h
          busy_clear := fun _ h => by simp [hb] at h }
      queue := { head_lt := hh, tail_lt := ht, empty_head := he }
      storage := { wf := hw, within := hn } }
  context := hx

/-- The invariant of the block does not look at the context. -/
theorem blockInv_context (a : Agent) {s : State} (h : BlockInv s) : BlockInv { s with context := a } where
  cfg := h.cfg
  framer := ⟨h.framer.1, h.framer.2, h.framer.3, h.framer.4, h.framer.5, h.framer.6⟩
  queue := ⟨h.queue.1, h.queue.2, h.queue.3⟩
  storage := ⟨h.storage.1, h.storage.2⟩

theorem inv_ready : Inv (ready 3) :=
  inv_at_rest _ (by decide) rfl rfl rfl (by decide) (by decide) (by decide) rfl rfl rfl

theorem inv_ready_one : Inv (ready 1) :=
  inv_at_rest _ (by decide) rfl rfl rfl (by decide) (by decide) (by decide) rfl rfl rfl

/-- N = 3 with three unread bytes. -/
def fullQueue : State := loaded [(0, 0xA1), (1, 0xA2), (2, 0xA3)] 2

theorem inv_fullQueue : Inv fullQueue :=
  inv_at_rest _ (by decide) rfl rfl rfl (by decide) (by decide) (by decide) rfl rfl rfl

/-- N = 3 with one unread byte. -/
def oneByte (b : Byte) : State := { ready 3 with storage := Memory.cons 0 b [], tail := 0, empty := false }

theorem inv_oneByte : Inv (oneByte 0xA1) :=
  inv_at_rest _ (by decide) rfl rfl rfl (by decide) (by decide) (by decide) rfl rfl rfl

/-- In the window of a GETKEY (K26), the code of the released key queued. -/
def window (agenda : List Turn) : State := { oneByte 0x12 with decPhase := .afterBreak, agenda := agenda }

theorem witness_step_runs :
    let s : State := { ready 3 with agenda := [.issue .producer 0x0100] }
    let t : State := { ready 3 with agenda := [.issue .consumer 0x0600] }
    let u := window [.issue .producer 0x0101]
    s.agenda = [.issue .producer 0x0100] ∧ ¬ (Agent.producer = .consumer ∧ s.decPhase = .afterBreak) ∧
    decode 0x0100 = .instr (.edge 0) ∧
    t.agenda = [.issue .consumer 0x0600] ∧ ¬ (Agent.consumer = .consumer ∧ t.decPhase = .afterBreak) ∧
    decode 0x0600 = .instr .getkey ∧
    u.agenda = [.issue .producer 0x0101] ∧ ¬ (Agent.producer = .consumer ∧ u.decPhase = .afterBreak) ∧
    decode 0x0101 = .instr (.edge 1) := by decide

/-- Each of the four turns in the window, and what it gives. -/
theorem witness_window :
    (window []).decPhase = .afterBreak ∧
    seen (step (window [.issue .consumer 0x0300])) (fun t => (t.decPhase, t.agenda)) =
      some (.idle, [.issue .consumer 0x0300]) ∧
    seen (step (window [.resume])) (fun t => (t.decPhase, t.agenda)) = some (.idle, []) ∧
    seen (step (window [])) (fun t => (t.decPhase, t.agenda)) = some (.idle, []) ∧
    seen (step (window [.issue .producer 0x0101])) (fun t => (t.decPhase, t.agenda)) = some (.afterBreak, []) := by
  decide

theorem witness_nothing_issued :
    (ready 3).decPhase = .idle ∧ (ready 3).agenda = [] ∧
    ({ ready 3 with agenda := [.resume] } : State).agenda = .resume :: [] := by decide

/-- EDGE in AWAIT_START. -/
theorem witness_await_start :
    (asProducer (ready 3)).context = .producer ∧ (asProducer (ready 3)).edgeIrqEn = true ∧
    (asProducer (ready 3)).fsmState = .awaitStart := by decide

/-- A frame with `i` data bits received. -/
def receiving (i : BitVec 3) : State := { asProducer (ready 3) with fsmState := .receivingBits, bitIndex := i, busy := true }

/-- EDGE in RECEIVING_BITS, with the first, the last but one and the last data bit to come. -/
theorem witness_receiving :
    (receiving 0).context = .producer ∧ (receiving 0).edgeIrqEn = true ∧ (receiving 0).fsmState = .receivingBits ∧
    (receiving 0).bitIndex ≠ 7#3 ∧ (receiving 6).bitIndex ≠ 7#3 ∧ (receiving 7).bitIndex = 7#3 := by decide

/-- EDGE in AWAIT_PARITY: odd parity, and the two policies after a mismatch. -/
theorem witness_await_parity :
    (afterData (cfgOf 3)).context = .producer ∧ (afterData (cfgOf 3)).edgeIrqEn = true ∧
    (afterData (cfgOf 3)).fsmState = .awaitParity ∧
    (0#1).toNat ≠ (afterData (cfgOf 3)).parityOnesCount.toNat % 2 ∧
    (1#1).toNat = (afterData (cfgOf 3)).parityOnesCount.toNat % 2 ∧
    (afterData (cfgOf 3)).cfg.busyParityPolicy = .clear ∧ (afterData latchCfg).cfg.busyParityPolicy = .latch := by
  decide

/-- A frame of 0x1C before its stop bit, with a queue and a history. -/
def beforeStop (s : State) (l h : Byte) : State :=
  { asProducer s with
    fsmState := .awaitStop, accumulator := 0x1C, parityOnesCount := 3, busy := true, lastAccepted := l,
    secondLastAccepted := h }

/-- EDGE in AWAIT_STOP: suppressed, not suppressed with one history byte equal, a full queue, an empty one, N = 1. -/
theorem witness_await_stop :
    (beforeStop fullQueue 0x1C 0x00).context = .producer ∧ (beforeStop fullQueue 0x1C 0x00).edgeIrqEn = true ∧
    (beforeStop fullQueue 0x1C 0x00).fsmState = .awaitStop ∧ 1 ≤ (beforeStop fullQueue 0x1C 0x00).cfg.capacity ∧
    Memory.wf (beforeStop fullQueue 0x1C 0x00).storage = true ∧
    seen (exec (.edge 1) (beforeStop fullQueue 0x1C 0x1C)) (·.trace) = some [⟨.suppressed, some 0x1C⟩] ∧
    seen (exec (.edge 1) (beforeStop fullQueue 0x1C 0x00)) (·.trace) = some [⟨.queueFull, some 0x1C⟩] ∧
    seen (exec (.edge 1) (beforeStop (ready 3) 0x00 0x1C)) (·.trace) = some [⟨.accepted, some 0x1C⟩] ∧
    seen (exec (.edge 1) (beforeStop (ready 1) 0x00 0x00)) (·.trace) = some [⟨.accepted, some 0x1C⟩] ∧
    seen (exec (.edge 0) (beforeStop (ready 3) 0x1C 0x1C)) (·.trace) = some [⟨.stopFail, some 0x1C⟩] := by decide

theorem witness_disabled :
    (asProducer State.reset).context = .producer ∧ (asProducer State.reset).edgeIrqEn = false := by decide

/-- The framer's state moves: by each row of the table, and by INIT. -/
theorem witness_framer_moves :
    seen (exec (.edge 0) (asProducer (ready 3))) (·.fsmState) = some .receivingBits ∧
    seen (exec (.edge 0) (receiving 7)) (·.fsmState) = some .awaitParity ∧
    seen (exec (.edge 0) (afterData (cfgOf 3))) (·.fsmState) = some .awaitStop ∧
    seen (exec (.edge 1) (afterData (cfgOf 3))) (·.fsmState) = some .awaitStart ∧
    seen (exec (.edge 0) (beforeStop (ready 3) 0 0)) (·.fsmState) = some .awaitStart ∧
    seen (exec .init { receiving 7 with context := .consumer }) (·.fsmState) = some .awaitStart := by decide

/-- FRAME 0x1C with consumer operations around and inside it (F9). -/
def mixedOps : List Instr := .isbusy :: (frame 0x1C).take 5 ++ [.pop, .getkey] ++ (frame 0x1C).drop 5 ++ [.peek]

theorem witness_frame_received :
    Inv (ready 3) ∧ (ready 3).edgeIrqEn = true ∧ (ready 3).fsmState = .awaitStart ∧
    mixedOps.filter isEdge = frame 0x1C ∧
    (∀ i ∈ mixedOps, isEdge i = false → issuer i = .consumer ∧ i ≠ .init) ∧
    ¬ ((0x1C : Byte) = (ready 3).lastAccepted ∧ (0x1C : Byte) = (ready 3).secondLastAccepted) ∧
    ((0x00 : Byte) = (ready 3).lastAccepted ∧ (0x00 : Byte) = (ready 3).secondLastAccepted) :=
  ⟨inv_ready, rfl, rfl, by decide, by decide, by decide, by decide⟩

/-- The hypotheses of WellFormedFrameQueuesItsByte and MalformedFramesQueueNothing with a full queue; those with room
are in witness_frame_received. -/
theorem witness_frame_full :
    Inv fullQueue ∧ fullQueue.edgeIrqEn = true ∧ fullQueue.fsmState = .awaitStart ∧
    fullQueue.unread.length = fullQueue.cfg.capacity := ⟨inv_fullQueue, rfl, rfl, by decide⟩

/-- The three histories of the suppression laws, on one state at rest each. -/
theorem witness_suppression :
    Inv (ready 3) ∧ (ready 3).lastAccepted ≠ 0x1C ∧
    Inv { ready 3 with lastAccepted := 0x1C } ∧ ({ ready 3 with lastAccepted := 0x1C } : State).secondLastAccepted ≠ 0x1C ∧
    (ready 3).lastAccepted = 0x00 ∧ (ready 3).secondLastAccepted = 0x00 :=
  ⟨inv_ready, by decide,
    inv_at_rest _ (by decide) rfl rfl rfl (by decide) (by decide) (by decide) rfl rfl rfl, by decide, rfl, rfl⟩

/-- LATCH with `busy` left at 1 (P3, line 4). -/
def latched : State := { State.powerOn latchCfg with edgeIrqEn := true, busy := true }

theorem witness_latched :
    latched.cfg.busyParityPolicy = .latch ∧ latched.busy = true ∧ latched.context = .consumer ∧
    seen (exec .init latched) (·.busy) = some false ∧
    seen (exec (.edge 0) (asProducer { latched with fsmState := .awaitStop })) (·.busy) = some false := by decide

theorem witness_edge_ignores :
    (cfgOf 3).capacity = (ready 3).cfg.capacity ∧
    Config.busyParityPolicy { cfgOf 3 with nomap := 0xFF } = (ready 3).cfg.busyParityPolicy ∧
    seen (exec (.edge 0) (asProducer (ready 3))) (·.busy) = some true := by decide

/-- PUSH: a full queue, and one with room. -/
theorem witness_push :
    (asProducer fullQueue).context = .producer ∧ 1 ≤ (asProducer fullQueue).cfg.capacity ∧
    Memory.wf (asProducer fullQueue).storage = true ∧
    (fullQueue.empty = false ∧ (fullQueue.tail + 1) % fullQueue.cfg.capacity = fullQueue.head) ∧
    (asProducer (ready 1)).context = .producer ∧ 1 ≤ (ready 1).cfg.capacity ∧ Memory.wf (ready 1).storage = true ∧
    ¬ ((ready 1).empty = false ∧ ((ready 1).tail + 1) % (ready 1).cfg.capacity = (ready 1).head) := by decide

/-- POP and PEEK: an empty queue, the last byte, and more than one. -/
theorem witness_pop :
    (ready 3).context = .consumer ∧ (ready 3).head < (ready 3).cfg.capacity ∧ (ready 3).empty = true ∧
    (oneByte 0xA1).context = .consumer ∧ (oneByte 0xA1).head < (oneByte 0xA1).cfg.capacity ∧
    (oneByte 0xA1).empty = false ∧ (oneByte 0xA1).head = (oneByte 0xA1).tail ∧
    fullQueue.context = .consumer ∧ fullQueue.head < fullQueue.cfg.capacity ∧ fullQueue.empty = false ∧
    fullQueue.head ≠ fullQueue.tail := by decide

/-- For IsemptyReturnsTheSentinel, IsbusyReturnsBusyOrEmpty, InitResetsTheBlockAndEnablesTheInterrupt and
ReadsAreIdempotent. -/
theorem witness_consumer :
    fullQueue.context = .consumer ∧
    seen (exec .peek fullQueue) (·.result) = some (.byte (some 0xA1)) ∧
    seen (exec .isempty fullQueue) (·.result) = some (.bool false) ∧
    seen (exec .isbusy fullQueue) (·.result) = some (.bool false) := by decide

/-- The bounded list: room, none, and each agent. -/
theorem witness_fifo :
    BlockInv (asProducer (oneByte 0xA1)) ∧ (oneByte 0xA1).unread.length < (oneByte 0xA1).cfg.capacity ∧
    BlockInv (asProducer fullQueue) ∧ fullQueue.unread.length = fullQueue.cfg.capacity ∧
    BlockInv fullQueue ∧ fullQueue.context = .consumer ∧ (asProducer fullQueue).context = .producer :=
  ⟨blockInv_context _ inv_oneByte.block, by decide, blockInv_context _ inv_fullQueue.block, by decide,
    inv_fullQueue.block, rfl, rfl⟩

/-- Pushes and pops from an empty queue with N = 1, a failed push and an empty pop among them. -/
theorem witness_interleaving :
    Inv (ready 1) ∧ (ready 1).empty = true ∧
    (∀ i ∈ [Instr.push 0x10, .push 0x11, .pop, .pop], i = .pop ∨ ∃ b, i = .push b) ∧
    (runIssued [.push 0x10, .push 0x11, .pop, .pop] (ready 1)).map (fun r => r.1.map Prod.snd) =
      some [.bool true, .bool false, .byte (some 0x10), .byte none] :=
  ⟨inv_ready_one, rfl, by simp, by decide⟩

theorem witness_capacity : Inv (ready 3) ∧ (ready 3).empty = true ∧ [0xA1#8, 0xA2, 0xA3].length = (ready 3).cfg.capacity :=
  ⟨inv_ready, rfl, rfl⟩

theorem witness_producer_keeps_oldest :
    BlockInv (asProducer (oneByte 0xA1)) ∧ issuer (.push 0xA2) = .producer ∧ (asProducer (oneByte 0xA1)).empty = false ∧
    seen (exec (.push 0xA2) (asProducer (oneByte 0xA1))) State.unread = some [0xA1, 0xA2] :=
  ⟨blockInv_context _ inv_oneByte.block, rfl, rfl, by decide⟩

/-- GETKEY, phase 1: an empty queue, the marker, a shift code, the caps code, 0x80, 0x7F with NOMAP, and 0x1C. -/
theorem witness_getkey :
    (ready 3).context = .consumer ∧ (ready 3).head < (ready 3).cfg.capacity ∧ (ready 3).decPhase = .idle ∧
    (ready 3).empty = true ∧
    [0xF0, 0x59, 0x58, 0x80, 0x7F, 0x1C, 0x12].map (fun b => seen (exec .getkey (oneByte b))
      fun t => (t.decPhase, t.shiftHeld, t.capsLockOn, t.result)) =
    [some (.afterBreak, false, false, .nothing), some (.idle, true, false, .byte none),
     some (.idle, false, true, .byte none), some (.idle, false, false, .byte none),
     some (.idle, false, false, .byte none), some (.idle, false, false, .byte (some 0x61)),
     some (.idle, true, false, .byte none)] := by decide

/-- GETKEY, phase 2: an empty queue, a shift code, and another code. -/
theorem witness_getkey_break :
    (window []).context = .consumer ∧ (window []).head < (window []).cfg.capacity ∧ (window []).decPhase = .afterBreak ∧
    [0x12, 0x59, 0x1C].map (fun b => seen (exec .getkey { oneByte b with decPhase := .afterBreak, shiftHeld := true })
      fun t => (t.decPhase, t.shiftHeld)) = [some (.idle, false), some (.idle, false), some (.idle, true)] ∧
    seen (exec .getkey { ready 3 with decPhase := .afterBreak, shiftHeld := true }) (·.shiftHeld) = some true := by
  decide

/-- Table selection at the pinned entry and at the last code of the tables. -/
theorem witness_selection :
    let s := oneByte 0x1C
    let c : Config := { cfgOf 3 with
      unshifted := Table.ofList 0 [(0x1C, 0x61), (0x7F, 0x31)], shifted := Table.ofList 0 [(0x1C, 0x41), (0x7F, 0x21)] }
    let t : State := { oneByte 0x7F with cfg := c }
    (s.context = .consumer ∧ s.decPhase = .idle ∧ s.empty = false ∧ s.head < s.cfg.capacity ∧
      Memory.read s.storage s.head = BitVec.ofNat 8 0x1C ∧
      BitVec.ofNat 8 0x1C ∉ [s.cfg.breakCode, s.cfg.shiftLCode, s.cfg.shiftRCode, s.cfg.capsCode] ∧
      s.cfg.unshifted[(0x1C : Fin 128)] = 0x61#8 ∧ s.cfg.shifted[(0x1C : Fin 128)] = 0x41#8 ∧
      (0x61#8) ≠ s.cfg.nomap ∧ (0x41#8) ≠ s.cfg.nomap) ∧
    (t.context = .consumer ∧ t.decPhase = .idle ∧ t.empty = false ∧ t.head < t.cfg.capacity ∧
      Memory.read t.storage t.head = BitVec.ofNat 8 0x7F ∧
      BitVec.ofNat 8 0x7F ∉ [t.cfg.breakCode, t.cfg.shiftLCode, t.cfg.shiftRCode, t.cfg.capsCode] ∧
      t.cfg.unshifted[(0x7F : Fin 128)] = 0x31#8 ∧ t.cfg.shifted[(0x7F : Fin 128)] = 0x21#8 ∧
      (0x31#8) ≠ t.cfg.nomap ∧ (0x21#8) ≠ t.cfg.nomap) := by decide

/-- For GetkeyNeverReturnsThePlaceholder: a GETKEY that returns a character. -/
theorem witness_character : seen (exec .getkey (oneByte 0x1C)) (·.result) = some (.byte (some 0x61)) := by decide

theorem witness_consumption :
    BlockInv (oneByte 0xA1) ∧ (oneByte 0xA1).context = .consumer ∧ (oneByte 0xA1).decPhase = .idle ∧
    BlockInv { oneByte 0xA1 with decPhase := .afterBreak } :=
  ⟨inv_oneByte.block, rfl, rfl,
    (inv_at_rest { oneByte 0xA1 with decPhase := .afterBreak }
      (by decide) rfl rfl rfl (by decide) (by decide) (by decide) rfl rfl rfl).block⟩

/-- E6 of 95_test_vectors.md, loaded in a queue of five, without and with caps lock. -/
def shiftedLetters (caps : Bool) : State :=
  { ready 5 with
    storage := [(0, 0x12), (1, 0x1C), (2, 0xF0), (3, 0x12), (4, 0x1C)], tail := 4, empty := false, capsLockOn := caps }

theorem witness_letters (caps : Bool) :
    let s := shiftedLetters caps
    Inv s ∧ s.decPhase = .idle ∧ s.shiftHeld = false ∧ s.cfg.shiftLCode ≠ s.cfg.breakCode ∧
    0x1C#8 ≠ s.cfg.breakCode ∧ 0x1C#8 ≠ s.cfg.shiftLCode ∧ 0x1C#8 ≠ s.cfg.shiftRCode ∧ 0x1C#8 ≠ s.cfg.capsCode ∧
    s.cfg.nomap ≠ 0x61#8 ∧ s.cfg.nomap ≠ 0x41#8 ∧
    s.unread = [s.cfg.shiftLCode, 0x1C#8, s.cfg.breakCode, s.cfg.shiftLCode, 0x1C#8] := by
  cases caps <;>
    exact ⟨inv_at_rest _ (by decide) rfl rfl rfl (by decide) (by decide) (by decide) rfl rfl rfl,
      by decide, by decide, by decide, by decide, by decide, by decide, by decide, by decide, by decide, by decide⟩

/-- For InvariantHoldsAtPowerOn: well-formed configurations. -/
theorem witness_power_on : Config.default.wf = true ∧ (cfgOf 1).wf = true ∧ latchCfg.wf = true := by decide

/-- For OperationsWriteOnlyWhatTheAccessMatrixSays and TheTraceIsNeverReadAndEdgeRecordsAtMostOneEvent: each operation
gives a next state. -/
theorem witness_frames :
    seen (exec (.edge 1) (beforeStop (ready 3) 0 0)) State.unread = some [0x1C] ∧
    seen (exec (.push 0xA2) (asProducer (oneByte 0xA1))) State.unread = some [0xA1, 0xA2] ∧
    seen (exec .pop fullQueue) State.unread = some [0xA2, 0xA3] ∧
    seen (exec .peek fullQueue) State.unread = some [0xA1, 0xA2, 0xA3] ∧
    seen (exec .isempty fullQueue) State.unread = some [0xA1, 0xA2, 0xA3] ∧
    seen (exec .getkey fullQueue) State.unread = some [0xA2, 0xA3] ∧
    seen (exec .isbusy fullQueue) State.unread = some [0xA1, 0xA2, 0xA3] ∧
    seen (exec .init fullQueue) State.unread = some [] := by decide

/-- For EveryStepKeepsTheInvariant, NoStepFaultsAndLegalStepsComplete and NoStepChangesTheConfiguration: a step with an
operation issued, in the window, and with nothing to do. -/
theorem witness_step :
    Inv { ready 3 with agenda := [.issue .producer 0x0100] } ∧
    seen (step { ready 3 with agenda := [.issue .producer 0x0100] }) (fun t => (t.fsmState, t.agenda, t.context)) =
      some (.receivingBits, [], .consumer) ∧
    seen (step (window [])) (·.decPhase) = some .idle ∧ seen (step (ready 3)) (·.agenda) = some [] ∧
    decode 0x0100 = .instr (.edge 0) ∧ Agent.producer = issuer (.edge 0) :=
  ⟨inv_at_rest _ (by decide) rfl rfl rfl (by decide) (by decide) (by decide) rfl rfl rfl,
    by decide, by decide, by decide, by decide, by decide⟩

/-- For IndexRegistersHoldTheirWidth: a step from a state outside the invariant (N = 20, `head` at 31), one of the
invariant, and an operation of each agent. -/
theorem witness_index_width :
    let s : State := { ready 20 with head := 31, agenda := [.issue .consumer 0x0300] }
    s.indicesFit = true ∧ (20 : Nat) ≤ s.head ∧ seen (step s) State.indicesFit = some true ∧
    State.indicesFit { s with head := 32 } = false ∧
    (cfgOf 1).wf = true ∧ fullQueue.indicesFit = true ∧
    seen (exec .pop fullQueue) State.indicesFit = some true ∧
    seen (exec (.push 0xA2) (asProducer (oneByte 0xA1))) State.indicesFit = some true := by decide

/-- For BeforeInitTheQueueIsEmptyAndNoEdgeCounts: power-on, the state after a POP and an ISBUSY there, and a run. -/
theorem witness_before_init :
    (State.powerOn (cfgOf 3)).edgeIrqEn = false ∧ (State.powerOn (cfgOf 3)).empty = true ∧
    (State.powerOn (cfgOf 3)).decPhase = .idle ∧
    (runIssued [.pop, .isbusy] (State.powerOn (cfgOf 3))).map (fun r => (r.2.edgeIrqEn, r.2.empty, r.2.decPhase)) =
      some (false, true, .idle) ∧
    (runIssued [.pop, .edge 0, .getkey, .isbusy] (State.powerOn (cfgOf 3))).map (fun r => r.1.map Prod.snd) =
      some [.byte none, .byte none, .byte none, .bool true] := by decide

/-- Those operations are neither INIT nor PUSH. -/
theorem witness_before_init_ops :
    ∀ i ∈ [Instr.pop, .edge 0, .getkey, .isbusy], i ≠ .init ∧ ∀ b, i ≠ .push b := by simp

/-- States outside the invariant whose operations fault: `head` at N, and no slot at all. -/
theorem witness_absent_slots :
    let s : State := { oneByte 0xA1 with head := 3 }
    let t : State := asProducer (ready 0)
    let u : State := beforeStop (ready 0) 0 0
    s.context = .consumer ∧ s.empty = false ∧ s.cfg.capacity ≤ s.head ∧
    t.context = .producer ∧ t.cfg.capacity = 0 ∧ ¬ (t.empty = false ∧ t.tail + 1 = t.head) ∧
    u.context = .producer ∧ u.cfg.capacity = 0 ∧ u.edgeIrqEn = true ∧ u.fsmState = .awaitStop ∧
    ¬ (u.accumulator = u.lastAccepted ∧ u.accumulator = u.secondLastAccepted) := by decide

theorem witness_completes :
    BlockInv fullQueue ∧ fullQueue.context = issuer .pop ∧
    BlockInv (asProducer fullQueue) ∧ (asProducer fullQueue).context = issuer (.edge 0) :=
  ⟨inv_fullQueue.block, rfl, blockInv_context _ inv_fullQueue.block, rfl⟩

/-- Two states that differ in a slot without an unread byte. -/
theorem witness_unobserved :
    let s : State := { oneByte 0xA1 with agenda := [.issue .consumer 0x0300] }
    let t : State := { s with storage := [(0, 0xA1), (2, 0x55)] }
    Inv s ∧ Inv t ∧ t = { s with storage := t.storage } ∧ t.unread = s.unread ∧
    seen (step s) (·.result) = some (.byte (some 0xA1)) :=
  ⟨inv_at_rest _ (by decide) rfl rfl rfl (by decide) (by decide) (by decide) rfl rfl rfl,
    inv_at_rest _ (by decide) rfl rfl rfl (by decide) (by decide) (by decide) rfl rfl rfl, rfl, by decide, by decide⟩

end Sys2Proof.Tests
end

/-! PROOFS. The framer (40_framer.md). -/

namespace Sys2Proof.Machine

variable {s : State} {d : BitVec 1}

/-- What `accumulator[i] <- d` does to each bit (40_framer.md R102). -/
theorem getLsbD_setBit (v : Byte) (i : BitVec 3) (d : BitVec 1) {k : Nat} (hk : k < 8) :
    (setBit v i d).getLsbD k = if k = i.toNat then decide (d = 1#1) else v.getLsbD k := by
  have hd : d.getLsbD 0 = decide (d = 1#1) := by revert d; decide
  rcases Nat.lt_trichotomy k i.toNat with hlt | rfl | hgt
  · simp [setBit, hk, hlt, hlt.ne]
  · simp [setBit, hk, ← hd]
  · have hzero : k - i.toNat ≠ 0 := by omega
    have hdk : d.getLsbD (k - i.toNat) = false := BitVec.getLsbD_of_ge _ _ (by omega)
    simp [setBit, hk, hgt.ne', hzero, hdk]

/-- A serviced EDGE in RECEIVING_BITS completes, whatever the capacity: it does not reach the queue. -/
theorem execEdge_receivingBits (hx : s.context = .producer) (he : s.edgeIrqEn = true)
    (hf : s.fsmState = .receivingBits) :
    exec (.edge d) s = .next ((edgeReceivingBits d s).returning .nothing) := by
  have hstep : framerStep d s = .ok (edgeReceivingBits d s) := by rw [framerStep, hf]
  show issued (.edge d) s _ = _
  rw [if_pos he, edgeServiced, hstep]
  exact issued_ok hx

/-- The eighth data bit ends RECEIVING_BITS (40_framer.md R102). -/
theorem edgeReceivingBits_of_last (d : BitVec 1) (h : s.bitIndex = 7#3) :
    (edgeReceivingBits d s).bitIndex = 0#3 ∧ (edgeReceivingBits d s).fsmState = .awaitParity :=
  ⟨if_pos h, if_pos h⟩

/-- An earlier data bit moves the index on (40_framer.md R102). -/
theorem edgeReceivingBits_of_not_last (d : BitVec 1) (h : s.bitIndex ≠ 7#3) :
    (edgeReceivingBits d s).bitIndex = s.bitIndex + 1 ∧ (edgeReceivingBits d s).fsmState = .receivingBits :=
  ⟨if_neg h, if_neg h⟩

/-- Settles O13: the next state is `edgeReceivingBits`, whose accumulator is one `setBit`. -/
theorem edgeInReceivingBitsStoresOneBit : Obligations.EdgeInReceivingBitsStoresOneBit := by
  intro s d hx he hf
  refine ⟨(edgeReceivingBits d s).returning .nothing, execEdge_receivingBits hx he hf, ?bit, rfl, ?last, ?notLast, rfl⟩
  case bit => exact fun _ hk => getLsbD_setBit s.accumulator s.bitIndex d hk
  case last => exact edgeReceivingBits_of_last d
  case notLast => exact edgeReceivingBits_of_not_last d

end Sys2Proof.Machine

/-! PROOFS. The byte queue (41_queue.md). -/

namespace Sys2Proof.Machine

variable {s : State} {b : Byte}

/-- PUSH on a full queue (41_queue.md R131). -/
theorem execPush_of_full (hc : 1 ≤ s.cfg.capacity) (hx : s.context = .producer) (hf : s.full = true) :
    exec (.push b) s = .next (s.returning (.bool false)) := by
  rw [execPush_eq hc hx, if_pos hf]

/-- PUSH on a queue with room (41_queue.md R131). -/
theorem execPush_of_not_full (hc : 1 ≤ s.cfg.capacity) (hx : s.context = .producer) (hf : ¬ s.full = true) :
    exec (.push b) s = .next ((pushed b s).returning (.bool true)) := by
  rw [execPush_eq hc hx, if_neg hf]

/-- POP on an empty queue (41_queue.md R132). -/
theorem execPop_of_empty (hh : s.head < s.cfg.capacity) (hx : s.context = .consumer) (he : s.empty = true) :
    exec .pop s = .next (s.returning (.byte none)) := by
  rw [execPop_eq hh hx, if_pos he]

/-- POP on a queue with an unread byte (41_queue.md R132). -/
theorem execPop_of_nonempty (hh : s.head < s.cfg.capacity) (hx : s.context = .consumer) (he : s.empty = false) :
    exec .pop s = .next ((popped s).returning (.byte (some (Memory.read s.storage s.head)))) := by
  rw [execPop_eq hh hx, if_neg (Bool.eq_false_iff.1 he)]

/-- Removing the only unread byte empties the queue (41_queue.md R132). -/
theorem popped_of_last (hlast : s.head = s.tail) :
    popped s = { s with empty := true, head := s.next s.head } := by
  rw [popped, beq_iff_eq.2 hlast]

/-- Removing one of several unread bytes moves `head` alone (41_queue.md R132). -/
theorem popped_of_more (he : s.empty = false) (hmore : s.head ≠ s.tail) :
    popped s = { s with head := s.next s.head } := by
  rw [popped, beq_eq_false_iff_ne.2 hmore, ← he]

/-- Settles O24: a PUSH with room gives `pushed`, whose storage is one write at `next(tail)`. -/
theorem pushAppendsTheByteOrFails : Obligations.PushAppendsTheByteOrFails := by
  intro s b hx hc hwf
  refine ⟨rfl, fun hfull => execPush_of_full hc hx (full_iff.2 hfull), fun hroom => ?room⟩
  case room =>
    refine ⟨(pushed b s).returning (.bool true), execPush_of_not_full hc hx (mt full_iff.1 hroom), ?stored, ?kept, rfl⟩
    case stored => exact Memory.read_write_same hwf
    case kept => exact fun _ hne => Memory.read_write_other hne

/-- Settles O25: a POP of an unread byte gives `popped`, which is empty exactly when `head` had reached `tail`. -/
theorem popReturnsAndRemovesTheOldestByte : Obligations.PopReturnsAndRemovesTheOldestByte := by
  intro s hx hh
  refine ⟨by decide, execPop_of_empty hh hx, fun he hlast => ?last, fun he hmore => ?more⟩
  case last =>
    rw [execPop_of_nonempty hh hx he, popped_of_last hlast]
    rfl
  case more =>
    rw [execPop_of_nonempty hh hx he, popped_of_more he hmore]
    rfl

/-- Settles O27: the word is one fixed value, and the answer is `execIsempty_eq`. -/
theorem isemptyReturnsTheSentinel : Obligations.IsemptyReturnsTheSentinel :=
  fun _ hx => ⟨by decide, execIsempty_eq hx⟩

end Sys2Proof.Machine

/-! PROOFS. The scan-code decoder (42_decoder.md). -/

namespace Sys2Proof.Machine

variable {s : State}

/-- The table `shift_held xor caps_lock_on` selects (42_decoder.md R153). -/
def State.selectedTable (s : State) : Table := if s.selectsShifted then s.cfg.shifted else s.cfg.unshifted

theorem selectedTable_of_shift_eq_caps (h : s.shiftHeld = s.capsLockOn) : s.selectedTable = s.cfg.unshifted := by
  simp [State.selectedTable, State.selectsShifted, h]

theorem selectedTable_of_shift_ne_caps (h : s.shiftHeld ≠ s.capsLockOn) : s.selectedTable = s.cfg.shifted := by
  simp [State.selectedTable, State.selectsShifted, h]

/-- A code below 0x80 looks up its entry of the selected table (42_decoder.md R153, R155). -/
theorem lookup_eq_some {c : Fin 128} {ch : Byte} (hentry : s.selectedTable[c] = ch) (hmapped : ch ≠ s.cfg.nomap) :
    s.lookup (BitVec.ofNat 8 c.val) = some ch := by
  have hcode : (BitVec.ofNat 8 c.val).toNat = c.val := by
    rw [BitVec.toNat_ofNat]; omega
  have hread : (if s.selectsShifted then s.cfg.shifted[c.val] else s.cfg.unshifted[c.val]) = ch := by
    rw [← hentry, State.selectedTable]
    cases s.selectsShifted <;> rfl
  simp [State.lookup, Table.read, hcode, hread, hmapped]

/-- The lookup reads the modifiers and the tables only, which removing a byte keeps. -/
@[simp] theorem lookup_popped (c : Byte) : (popped s).lookup c = s.lookup c := rfl

/-- The decode of a byte that is no special code is its lookup alone (42_decoder.md R151). -/
theorem decodeMake_of_not_special {c : Byte}
    (hc : c ∉ [s.cfg.breakCode, s.cfg.shiftLCode, s.cfg.shiftRCode, s.cfg.capsCode]) :
    decodeMake c s = s.returning (.byte (s.lookup c)) := by
  simp only [List.mem_cons, List.not_mem_nil, or_false, not_or] at hc
  obtain ⟨hbreak, hshiftL, hshiftR, hcaps⟩ := hc
  have hshift : ¬ isShiftCode s.cfg c = true := by simp [isShiftCode, hshiftL, hshiftR]
  rw [decodeMake, if_neg hbreak, if_neg hshift, if_neg hcaps]

/-- The first phase of GETKEY with an unread byte (42_decoder.md R151). -/
theorem execGetkey_idle_of_nonempty (hh : s.head < s.cfg.capacity) (hx : s.context = .consumer)
    (hp : s.decPhase = .idle) (he : s.empty = false) :
    exec .getkey s = .next (decodeMake (Memory.read s.storage s.head) (popped s)) := by
  rw [execGetkey_idle hh hx hp, if_neg (Bool.eq_false_iff.1 he)]

/-- Settles O34: the byte is no special code, so the result is its lookup, and the lookup reads `selectedTable`. -/
theorem tableIsSelectedByShiftXorCaps : Obligations.TableIsSelectedByShiftXorCaps := by
  intro s c u v hx hp he hh hread hplain hu hv humapped hvmapped
  have hunshifted (hsel : s.shiftHeld = s.capsLockOn) : s.lookup (BitVec.ofNat 8 c.val) = some u :=
    lookup_eq_some (by rw [selectedTable_of_shift_eq_caps hsel, hu]) humapped
  have hshifted (hsel : s.shiftHeld ≠ s.capsLockOn) : s.lookup (BitVec.ofNat 8 c.val) = some v :=
    lookup_eq_some (by rw [selectedTable_of_shift_ne_caps hsel, hv]) hvmapped
  refine ⟨(popped s).returning (.byte (s.lookup (BitVec.ofNat 8 c.val))), ?step, ?plain, ?shift, ?caps, ?both⟩
  case step =>
    rw [execGetkey_idle_of_nonempty hh hx hp he, hread, decodeMake_of_not_special (s := popped s) hplain, lookup_popped]
  case plain => exact fun hc hs => congrArg Result.byte (hunshifted (by simp [hc, hs]))
  case shift => exact fun hc hs => congrArg Result.byte (hshifted (by simp [hc, hs]))
  case caps => exact fun hc hs => congrArg Result.byte (hshifted (by simp [hc, hs]))
  case both => exact fun hc hs => congrArg Result.byte (hunshifted (by simp [hc, hs]))

end Sys2Proof.Machine

/-! PROOFS. What every operation does, as a state: `executed`, when it completes, and its frame. -/

namespace Sys2Proof.Machine

variable {s t : State} {i : Instr} {d : BitVec 1} {b : Byte}

/-! ## The accesses to the storage -/

/-- PUSH reaches no absent slot: the queue is full, or the slot it writes exists (10_state.md R27). -/
def State.pushFits (s : State) : Prop := s.full = true ∨ s.next s.tail < s.cfg.capacity

/-- POP reaches no absent slot: the queue is empty, or the slot it reads exists (10_state.md R27). -/
def State.popFits (s : State) : Prop := s.empty = true ∨ s.head < s.cfg.capacity

/-- The oldest byte, as PEEK reports it (41_queue.md R133). -/
def State.oldest (s : State) : Option Byte := if s.empty then none else some (Memory.read s.storage s.head)

/-- The queue without its oldest byte, if it has one (41_queue.md R132). -/
def State.dropped (s : State) : State := if s.empty then s else popped s

theorem State.pushFits_of_capacity (hc : 1 ≤ s.cfg.capacity) : s.pushFits := .inr (next_lt hc _)

theorem oldest_of_empty (he : s.empty = true) : s.oldest = none := if_pos he

theorem oldest_of_nonempty (he : s.empty = false) : s.oldest = some (Memory.read s.storage s.head) :=
  if_neg (Bool.eq_false_iff.1 he)

theorem dropped_of_empty (he : s.empty = true) : s.dropped = s := if_pos he

theorem dropped_of_nonempty (he : s.empty = false) : s.dropped = popped s := if_neg (Bool.eq_false_iff.1 he)

theorem pushByte_of_fits (h : s.pushFits) :
    pushByte b s = if s.full then .ok (false, s) else .ok (true, pushed b s) := by
  cases hf : s.full with
  | true => rw [if_pos rfl, pushByte, if_pos hf]
  | false =>
    have hslot : s.next s.tail < s.cfg.capacity := h.resolve_left (Bool.eq_false_iff.1 hf)
    rw [pushByte_eq (by omega), hf]

theorem pushByte_of_not_fits (h : ¬ s.pushFits) : pushByte b s = .error (.noSuchSlot (s.next s.tail)) := by
  obtain ⟨hf, hslot⟩ := not_or.1 h
  rw [pushByte, if_neg hf, State.writeSlot, if_neg hslot]

theorem popByte_of_fits (h : s.popFits) : popByte s = .ok (s.oldest, s.dropped) := by
  cases he : s.empty with
  | true => rw [popByte, if_pos he, oldest_of_empty he, dropped_of_empty he]
  | false =>
    rw [popByte_eq (h.resolve_left (Bool.eq_false_iff.1 he)), if_neg (Bool.eq_false_iff.1 he), oldest_of_nonempty he,
      dropped_of_nonempty he]

theorem popByte_of_not_fits (h : ¬ s.popFits) : popByte s = .error (.noSuchSlot s.head) := by
  obtain ⟨he, hslot⟩ := not_or.1 h
  rw [popByte, if_neg he, State.readSlot, if_neg hslot]

theorem peekByte_of_fits (h : s.popFits) : peekByte s = .ok s.oldest := by
  cases he : s.empty with
  | true => rw [peekByte, if_pos he, oldest_of_empty he]
  | false =>
    rw [peekByte_eq (h.resolve_left (Bool.eq_false_iff.1 he)), if_neg (Bool.eq_false_iff.1 he), oldest_of_nonempty he]

theorem peekByte_of_not_fits (h : ¬ s.popFits) : peekByte s = .error (.noSuchSlot s.head) := by
  obtain ⟨he, hslot⟩ := not_or.1 h
  rw [peekByte, if_neg he, State.readSlot, if_neg hslot]

/-! ## The framer's hand-over to PUSH -/

/-- An EDGE hands the received byte to PUSH (40_framer.md R104, R105). -/
def State.accepts (s : State) (d : BitVec 1) : Bool :=
  s.edgeIrqEn && s.fsmState == .awaitStop && d == 1#1 && !s.suppress s.accumulator

theorem accepts_iff :
    s.accepts d = true ↔ s.edgeIrqEn = true ∧ s.fsmState = .awaitStop ∧ d = 1#1 ∧ s.suppress s.accumulator = false := by
  simp [State.accepts, and_assoc]

theorem suppress_iff {v : Byte} : s.suppress v = true ↔ v = s.lastAccepted ∧ v = s.secondLastAccepted := by
  simp [State.suppress]

theorem acceptByte_of_fits (h : s.pushFits) :
    acceptByte s = .ok (if s.full then (historyMoved s).record .queueFull (some s.accumulator)
      else (pushed s.accumulator (historyMoved s)).record .accepted (some s.accumulator)) := by
  have hpush := pushByte_of_fits (s := historyMoved s) (b := s.accumulator) h
  rw [show (historyMoved s).full = s.full from rfl, historyMoved] at hpush
  rw [acceptByte, hpush]
  cases s.full <;> rfl

theorem acceptByte_of_not_fits (h : ¬ s.pushFits) : acceptByte s = .error (.noSuchSlot (s.next s.tail)) := by
  have hpush := pushByte_of_not_fits (s := historyMoved s) (b := s.accumulator) h
  rw [historyMoved] at hpush
  rw [acceptByte, hpush]
  rfl

theorem checkStop_of_fits (h : d = 1#1 → s.suppress s.accumulator = false → s.pushFits) :
    checkStop d s = .ok (stopChecked d s) := by
  unfold checkStop stopChecked
  split
  · split
    · rfl
    · exact acceptByte_of_fits (h ‹_› (Bool.eq_false_iff.2 ‹_›))
  · rfl

/-- A framer step reaches no absent slot unless it hands a byte to a PUSH that does. -/
theorem framerStep_of_fits (he : s.edgeIrqEn = true) (h : s.accepts d = true → s.pushFits) :
    framerStep d s = .ok (framed d s) := by
  rw [framerStep, framed]
  cases hf : s.fsmState with
  | awaitStart | receivingBits | awaitParity => rfl
  | awaitStop =>
    have hcheck := checkStop_of_fits (d := d) fun hd hsup => h (accepts_iff.2 ⟨he, hf, hd, hsup⟩)
    show edgeAwaitStop d s = _
    rw [edgeAwaitStop, hcheck]

theorem framerStep_of_not_fits (ha : s.accepts d = true) (h : ¬ s.pushFits) :
    framerStep d s = .error (.noSuchSlot (s.next s.tail)) := by
  obtain ⟨_, hstop, hd, hsup⟩ := accepts_iff.1 ha
  rw [framerStep, hstop]
  simp only [edgeAwaitStop, checkStop, if_pos hd, hsup, acceptByte_of_not_fits h, Bool.false_eq_true, if_false]

/-! ## Every operation -/

/-- The state after a GETKEY step (42_decoder.md R151, R152). -/
def State.keyRead (s : State) : State :=
  match s.decPhase, s.oldest with
  | .idle, none => s.returning (.byte none)
  | .idle, some c => decodeMake c (popped s)
  | .afterBreak, r => decodeBreak r s.dropped

/-- The state after an operation, if it completes. -/
def executed : Instr → State → State
  | .edge d, s => if s.edgeIrqEn then (framed d s).returning .nothing else s
  | .push b, s => if s.full then s.returning (.bool false) else (pushed b s).returning (.bool true)
  | .pop, s => s.dropped.returning (.byte s.oldest)
  | .peek, s => s.returning (.byte s.oldest)
  | .isempty, s => s.returning (.bool s.empty)
  | .getkey, s => s.keyRead
  | .isbusy, s => s.returning (.bool s.busyOrEmpty)
  | .init, s => (initialized s).returning .nothing

/-- An operation reaches no absent slot (10_state.md R27). -/
def fits : Instr → State → Prop
  | .edge d, s => s.accepts d = true → s.pushFits
  | .push _, s => s.pushFits
  | .pop, s => s.popFits
  | .peek, s => s.popFits
  | .isempty, _ => True
  | .getkey, s => s.popFits
  | .isbusy, _ => True
  | .init, _ => True

/-- The slot an operation of an agent accesses: PUSH writes `next(tail)`, the consumer reads at `head`. -/
def slotOf : Agent → State → Nat
  | .producer, s => s.next s.tail
  | .consumer, s => s.head

theorem getkeyPhaseOne_of_fits (h : s.popFits) (hp : s.decPhase = .idle) : getkeyPhaseOne s = .ok s.keyRead := by
  rw [getkeyPhaseOne, popByte_of_fits h]
  cases he : s.empty with
  | true => simp only [State.keyRead, hp, oldest_of_empty he, dropped_of_empty he]
  | false => simp only [State.keyRead, hp, oldest_of_nonempty he, dropped_of_nonempty he]

theorem getkeyPhaseTwo_of_fits (h : s.popFits) (hp : s.decPhase = .afterBreak) :
    getkeyPhaseTwo s = .ok s.keyRead := by
  rw [getkeyPhaseTwo, popByte_of_fits h, State.keyRead, hp]

/-- An operation of its own agent that reaches no absent slot completes. -/
theorem exec_of_fits (hx : s.context = issuer i) (hf : fits i s) : exec i s = .next (executed i s) := by
  cases i with
  | edge d =>
    cases he : s.edgeIrqEn with
    | true =>
      simp only [exec, execEdge, executed, he, if_true, edgeServiced, framerStep_of_fits he hf]
      exact issued_ok hx
    | false => simpa [executed, he] using execEdge_disabled hx he
  | push b =>
    simp only [exec, execPush, executed, pushByte_of_fits hf]
    cases s.full <;> exact issued_ok hx
  | pop =>
    simp only [exec, execPop, popByte_of_fits hf]
    exact issued_ok hx
  | peek =>
    simp only [exec, execPeek, peekByte_of_fits hf]
    exact issued_ok hx
  | isempty => exact issued_ok hx
  | getkey =>
    simp only [exec, execGetkey, executed]
    cases hp : s.decPhase with
    | idle => simpa only [getkeyPhaseOne_of_fits hf hp] using issued_ok hx
    | afterBreak => simpa only [getkeyPhaseTwo_of_fits hf hp] using issued_ok hx
  | isbusy => exact issued_ok hx
  | init => exact issued_ok hx

/-- An operation of its own agent that reaches an absent slot faults there (10_state.md R27). -/
theorem exec_of_not_fits (hx : s.context = issuer i) (hf : ¬ fits i s) :
    exec i s = .fault (.noSuchSlot (slotOf (issuer i) s)) := by
  cases i with
  | edge d =>
    obtain ⟨ha, hslot⟩ := Classical.not_imp.1 hf
    simp only [exec, execEdge, (accepts_iff.1 ha).1, if_true, edgeServiced, framerStep_of_not_fits ha hslot]
    exact issued_eq_fault.2 ⟨hx, rfl⟩
  | push b =>
    simp only [exec, execPush, pushByte_of_not_fits hf]
    exact issued_eq_fault.2 ⟨hx, rfl⟩
  | pop =>
    simp only [exec, execPop, popByte_of_not_fits hf]
    exact issued_eq_fault.2 ⟨hx, rfl⟩
  | peek =>
    simp only [exec, execPeek, peekByte_of_not_fits hf]
    exact issued_eq_fault.2 ⟨hx, rfl⟩
  | getkey =>
    simp only [exec, execGetkey, getkeyPhaseOne, getkeyPhaseTwo, popByte_of_not_fits hf]
    cases s.decPhase <;> exact issued_eq_fault.2 ⟨hx, rfl⟩
  | isempty => exact absurd trivial hf
  | isbusy => exact absurd trivial hf
  | init => exact absurd trivial hf

/-- Everything an operation that gives a next state can do. -/
theorem exec_eq_next : exec i s = .next t ↔ s.context = issuer i ∧ fits i s ∧ t = executed i s := by
  refine ⟨fun h => ?forward, fun ⟨hx, hf, ht⟩ => ht ▸ exec_of_fits hx hf⟩
  case forward =>
    have hx := context_of_exec_next h
    by_cases hf : fits i s
    · rw [exec_of_fits hx hf] at h
      exact ⟨hx, hf, (Host.Outcome.next.inj h).symm⟩
    · simp [exec_of_not_fits hx hf] at h

/-- With an unread slot to read and a slot to write, no operation reaches an absent slot. -/
theorem fits_of_queueInv (i : Instr) (hq : QueueInv s) : fits i s := by
  have hh := hq.head_lt
  have hpush : s.pushFits := State.pushFits_of_capacity (by omega)
  have hpop : s.popFits := .inr hh
  cases i with
  | edge d => exact fun _ => hpush
  | push b => exact hpush
  | pop => exact hpop
  | peek => exact hpop
  | isempty => trivial
  | getkey => exact hpop
  | isbusy => trivial
  | init => trivial

end Sys2Proof.Machine

/-! PROOFS. One framer step, row by row (40_framer.md section 2). -/

namespace Sys2Proof.Machine

variable {s t : State} {d : BitVec 1}

/-! ## The rows of the framer's table (40_framer.md section 2) -/

theorem bit_eq_zero_or_one (d : BitVec 1) : d = 0#1 ∨ d = 1#1 := by revert d; decide

theorem framed_start (hfsm : s.fsmState = .awaitStart) :
    framed 0#1 s =
      { s with accumulator := 0, parityOnesCount := 0, bitIndex := 0, busy := true, fsmState := .receivingBits } := by
  rw [framed, hfsm]
  rfl

theorem framed_noise (hfsm : s.fsmState = .awaitStart) : framed 1#1 s = s.record .noise none := by
  rw [framed, hfsm]
  rfl

theorem framed_dataBit (hfsm : s.fsmState = .receivingBits) : framed d s = edgeReceivingBits d s := by
  rw [framed, hfsm]

theorem framed_parity (hfsm : s.fsmState = .awaitParity) (hp : s.parityHolds d = true) :
    framed d s = { s with fsmState := .awaitStop } := by
  rw [framed, hfsm]
  exact if_pos hp

theorem framed_parityFail (hfsm : s.fsmState = .awaitParity) (hp : s.parityHolds d = false) :
    framed d s =
      { s with fsmState := .awaitStart, busy := s.busyAfterParityFail }.record .parityFail (some s.accumulator) := by
  rw [framed, hfsm]
  exact if_neg (Bool.eq_false_iff.1 hp)

/-- A frame that ends: the framer is back in AWAIT_START with `busy` cleared (40_framer.md R104). -/
def State.frameEnded (s : State) : State := { s with fsmState := .awaitStart, busy := false }

theorem framed_stop (hfsm : s.fsmState = .awaitStop) : framed d s = (stopChecked d s).frameEnded := by
  rw [framed, hfsm]
  rfl

theorem framed_stopFail (hfsm : s.fsmState = .awaitStop) :
    framed 0#1 s = (s.record .stopFail (some s.accumulator)).frameEnded := framed_stop hfsm

theorem framed_suppressed (hfsm : s.fsmState = .awaitStop) (hsup : s.suppress s.accumulator = true) :
    framed 1#1 s = (s.record .suppressed (some s.accumulator)).frameEnded := by
  rw [framed_stop hfsm, stopChecked, if_pos rfl, if_pos hsup]

theorem framed_queueFull (hfsm : s.fsmState = .awaitStop) (hsup : s.suppress s.accumulator = false)
    (hf : s.full = true) :
    framed 1#1 s = ((historyMoved s).record .queueFull (some s.accumulator)).frameEnded := by
  rw [framed_stop hfsm, stopChecked, if_pos rfl, if_neg (Bool.eq_false_iff.1 hsup), if_pos hf]

theorem framed_accepted (hfsm : s.fsmState = .awaitStop) (hsup : s.suppress s.accumulator = false)
    (hf : s.full = false) :
    framed 1#1 s = ((pushed s.accumulator (historyMoved s)).record .accepted (some s.accumulator)).frameEnded := by
  rw [framed_stop hfsm, stopChecked, if_pos rfl, if_neg (Bool.eq_false_iff.1 hsup), if_neg (Bool.eq_false_iff.1 hf)]

/-- The rows of the framer's table, as one case split: whatever holds in each row holds of every framer step. -/
theorem framed_rows {P : BitVec 1 → Prop} (s : State)
    (start : s.fsmState = .awaitStart → P 0#1)
    (noise : s.fsmState = .awaitStart → P 1#1)
    (dataBit : ∀ d, s.fsmState = .receivingBits → P d)
    (parity : ∀ d, s.fsmState = .awaitParity → s.parityHolds d = true → P d)
    (parityFail : ∀ d, s.fsmState = .awaitParity → s.parityHolds d = false → P d)
    (stopFail : s.fsmState = .awaitStop → P 0#1)
    (suppressed : s.fsmState = .awaitStop → s.suppress s.accumulator = true → P 1#1)
    (queueFull : s.fsmState = .awaitStop → s.suppress s.accumulator = false → s.full = true → P 1#1)
    (accepted : s.fsmState = .awaitStop → s.suppress s.accumulator = false → s.full = false → P 1#1)
    (d : BitVec 1) : P d := by
  cases hfsm : s.fsmState with
  | awaitStart =>
    rcases bit_eq_zero_or_one d with rfl | rfl
    · exact start hfsm
    · exact noise hfsm
  | receivingBits => exact dataBit d hfsm
  | awaitParity =>
    cases hp : s.parityHolds d with
    | true => exact parity d hfsm hp
    | false => exact parityFail d hfsm hp
  | awaitStop =>
    rcases bit_eq_zero_or_one d with rfl | rfl
    · exact stopFail hfsm
    · cases hsup : s.suppress s.accumulator with
      | true => exact suppressed hfsm hsup
      | false =>
        cases hf : s.full with
        | true => exact queueFull hfsm hsup hf
        | false => exact accepted hfsm hsup hf

/-! ## What a framer step reads, records and stores -/

/-- The event an EDGE in AWAIT_STOP records (60_exceptions.md R181). -/
def stopTag (d : BitVec 1) (s : State) : EventTag :=
  if d = 1#1 then if s.suppress s.accumulator then .suppressed else if s.full then .queueFull else .accepted
  else .stopFail

/-- The events of one framer step (60_exceptions.md R181). -/
def framedEvents (d : BitVec 1) (s : State) : List Event :=
  match s.fsmState with
  | .awaitStart => if d = 0#1 then [] else [⟨.noise, none⟩]
  | .receivingBits => []
  | .awaitParity => if s.parityHolds d then [] else [⟨.parityFail, some s.accumulator⟩]
  | .awaitStop => [⟨stopTag d s, some s.accumulator⟩]

theorem length_framedEvents_le : (framedEvents d s).length ≤ 1 := by
  unfold framedEvents
  split
  · split <;> simp
  · simp
  · split <;> simp
  · simp

/-- What one framer step makes of a storage: one write at `next(tail)`, or nothing (20_memory.md section 4). -/
def framedStorage (d : BitVec 1) (s : State) (m : Memory) : Memory :=
  if s.fsmState = .awaitStop ∧ d = 1#1 ∧ s.suppress s.accumulator = false ∧ s.full = false then
    Memory.write m (s.next s.tail) s.accumulator
  else m

/-- The framer reads neither the storage, nor the latch, nor the decoder's phase, nor the tables, nor the context, nor
the trace (40_framer.md R110). -/
theorem framed_congr (d : BitVec 1) (hcap : t.cfg.capacity = s.cfg.capacity)
    (hpolicy : t.cfg.busyParityPolicy = s.cfg.busyParityPolicy)
    (ht : t = { s with
      cfg := t.cfg, storage := t.storage, shiftHeld := t.shiftHeld, capsLockOn := t.capsLockOn,
      decPhase := t.decPhase, context := t.context, trace := t.trace }) :
    framed d t =
      { framed d s with
        cfg := t.cfg, storage := framedStorage d s t.storage, shiftHeld := t.shiftHeld, capsLockOn := t.capsLockOn,
        decPhase := t.decPhase, context := t.context, trace := t.trace ++ framedEvents d s } := by
  have hstate : t.fsmState = s.fsmState := by rw [ht]
  have hholds (d : BitVec 1) : t.parityHolds d = s.parityHolds d := by rw [ht]; rfl
  have hsuppress : t.suppress t.accumulator = s.suppress s.accumulator := by rw [ht]; rfl
  have hfull : t.full = s.full := by rw [ht]; simp only [State.full, State.next, hcap]
  induction d using framed_rows s with
  | start hfsm =>
    rw [framed_start (hstate.trans hfsm), framed_start hfsm, ht]
    simp [framedEvents, framedStorage, hfsm]
  | noise hfsm =>
    rw [framed_noise (hstate.trans hfsm), framed_noise hfsm, ht]
    simp [framedEvents, framedStorage, hfsm, State.record]
  | dataBit d hfsm =>
    rw [framed_dataBit (hstate.trans hfsm), framed_dataBit hfsm, ht]
    simp [framedEvents, framedStorage, hfsm, edgeReceivingBits]
  | parity d hfsm hp =>
    rw [framed_parity (hstate.trans hfsm) ((hholds d).trans hp), framed_parity hfsm hp, ht]
    simp [framedEvents, framedStorage, hfsm, hp]
  | parityFail d hfsm hp =>
    rw [framed_parityFail (hstate.trans hfsm) ((hholds d).trans hp), framed_parityFail hfsm hp, ht]
    simp [framedEvents, framedStorage, hfsm, hp, State.record, State.busyAfterParityFail, hpolicy]
  | stopFail hfsm =>
    rw [framed_stopFail (hstate.trans hfsm), framed_stopFail hfsm, ht]
    simp [framedEvents, framedStorage, hfsm, stopTag, State.record, State.frameEnded]
  | suppressed hfsm hsup =>
    rw [framed_suppressed (hstate.trans hfsm) (hsuppress.trans hsup), framed_suppressed hfsm hsup, ht]
    simp [framedEvents, framedStorage, hfsm, stopTag, hsup, State.record, State.frameEnded]
  | queueFull hfsm hsup hf =>
    rw [framed_queueFull (hstate.trans hfsm) (hsuppress.trans hsup) (hfull.trans hf), framed_queueFull hfsm hsup hf, ht]
    simp [framedEvents, framedStorage, hfsm, stopTag, hsup, hf, State.record, State.frameEnded, historyMoved]
  | accepted hfsm hsup hf =>
    rw [framed_accepted (hstate.trans hfsm) (hsuppress.trans hsup) (hfull.trans hf), framed_accepted hfsm hsup hf, ht]
    simp [framedEvents, framedStorage, hfsm, stopTag, hsup, hf, State.record, State.frameEnded, historyMoved, pushed,
      State.next, hcap]

theorem framed_trace : (framed d s).trace = s.trace ++ framedEvents d s :=
  congrArg State.trace (framed_congr d rfl rfl rfl)

theorem framed_storage : (framed d s).storage = framedStorage d s s.storage :=
  congrArg State.storage (framed_congr d rfl rfl rfl)

end Sys2Proof.Machine

/-! PROOFS. The frame of every operation (10_state.md section 6). -/

namespace Sys2Proof.Machine

variable {s t : State} {i : Instr} {d : BitVec 1} {b c : Byte} {r : Option Byte}

/-! ## The frames of the shared operations -/

theorem dropped_frame : s.dropped = { s with head := s.dropped.head, empty := s.dropped.empty } := by
  unfold State.dropped
  split <;> rfl

theorem decodeMake_frame :
    decodeMake c s =
      { s with
        shiftHeld := (decodeMake c s).shiftHeld, capsLockOn := (decodeMake c s).capsLockOn,
        decPhase := (decodeMake c s).decPhase, result := (decodeMake c s).result } := by
  unfold decodeMake
  split
  · rfl
  · split
    · rfl
    · split <;> rfl

theorem keyRead_frame :
    s.keyRead =
      { s with
        head := s.keyRead.head, empty := s.keyRead.empty, shiftHeld := s.keyRead.shiftHeld,
        capsLockOn := s.keyRead.capsLockOn, decPhase := s.keyRead.decPhase, result := s.keyRead.result } := by
  unfold State.keyRead
  split
  · rfl
  · rw [decodeMake_frame]; rfl
  · rw [dropped_frame]; rfl

theorem stopChecked_frame :
    stopChecked d s =
      { s with
        lastAccepted := (stopChecked d s).lastAccepted, secondLastAccepted := (stopChecked d s).secondLastAccepted,
        storage := (stopChecked d s).storage, tail := (stopChecked d s).tail, empty := (stopChecked d s).empty,
        trace := (stopChecked d s).trace } := by
  unfold stopChecked
  split
  · split
    · rfl
    · split <;> rfl
  · rfl

theorem framed_frame :
    framed d s =
      { s with
        fsmState := (framed d s).fsmState, bitIndex := (framed d s).bitIndex, accumulator := (framed d s).accumulator,
        parityOnesCount := (framed d s).parityOnesCount, busy := (framed d s).busy,
        lastAccepted := (framed d s).lastAccepted, secondLastAccepted := (framed d s).secondLastAccepted,
        storage := (framed d s).storage, tail := (framed d s).tail, empty := (framed d s).empty,
        trace := (framed d s).trace } := by
  unfold framed
  split
  · unfold edgeAwaitStart; split <;> rfl
  · rfl
  · unfold edgeAwaitParity; split <;> rfl
  · rw [stopChecked_frame]

/-! ## The frames of the operations -/

theorem executed_edge_of_enabled (he : s.edgeIrqEn = true) :
    executed (.edge d) s = (framed d s).returning .nothing := if_pos he

theorem executed_edge_of_disabled (he : s.edgeIrqEn = false) : executed (.edge d) s = s :=
  if_neg (Bool.eq_false_iff.1 he)

theorem executed_push_of_full (hf : s.full = true) : executed (.push b) s = s.returning (.bool false) := if_pos hf

theorem executed_push_of_not_full (hf : s.full = false) :
    executed (.push b) s = (pushed b s).returning (.bool true) := if_neg (Bool.eq_false_iff.1 hf)

theorem executed_edge_frame :
    executed (.edge d) s =
      { s with
        fsmState := (executed (.edge d) s).fsmState, bitIndex := (executed (.edge d) s).bitIndex,
        accumulator := (executed (.edge d) s).accumulator,
        parityOnesCount := (executed (.edge d) s).parityOnesCount, busy := (executed (.edge d) s).busy,
        lastAccepted := (executed (.edge d) s).lastAccepted,
        secondLastAccepted := (executed (.edge d) s).secondLastAccepted,
        storage := (executed (.edge d) s).storage, tail := (executed (.edge d) s).tail,
        empty := (executed (.edge d) s).empty, result := (executed (.edge d) s).result,
        trace := (executed (.edge d) s).trace } := by
  rcases Bool.eq_false_or_eq_true s.edgeIrqEn with he | he
  · rw [executed_edge_of_enabled he, framed_frame]; rfl
  · rw [executed_edge_of_disabled he]

theorem executed_push_frame :
    executed (.push b) s =
      { s with
        storage := (executed (.push b) s).storage, tail := (executed (.push b) s).tail,
        empty := (executed (.push b) s).empty, result := (executed (.push b) s).result } := by
  cases hf : s.full with
  | true => rw [executed_push_of_full hf]; rfl
  | false => rw [executed_push_of_not_full hf]; rfl

theorem executed_pop_frame :
    executed .pop s =
      { s with
        head := (executed .pop s).head, empty := (executed .pop s).empty, result := (executed .pop s).result } := by
  rw [show executed .pop s = s.dropped.returning (.byte s.oldest) from rfl, dropped_frame]
  rfl

/-- A consumer operation but INIT leaves the framer, the history, the storage and `tail` (10_state.md section 6). -/
theorem executed_consumer_frame (hi : issuer i = .consumer) (hne : i ≠ .init) :
    executed i s =
      { s with
        head := (executed i s).head, empty := (executed i s).empty, shiftHeld := (executed i s).shiftHeld,
        capsLockOn := (executed i s).capsLockOn, decPhase := (executed i s).decPhase,
        result := (executed i s).result } := by
  cases i with
  | edge d => cases hi
  | push b => cases hi
  | pop => rw [executed_pop_frame]
  | peek => rfl
  | isempty => rfl
  | getkey => exact keyRead_frame
  | isbusy => rfl
  | init => exact absurd rfl hne

/-- A producer operation leaves the latch, the decoder's phase, `head` and the edge interrupt (10_state.md section
6). -/
theorem executed_producer_frame (hi : issuer i = .producer) :
    executed i s =
      { s with
        fsmState := (executed i s).fsmState, bitIndex := (executed i s).bitIndex,
        accumulator := (executed i s).accumulator, parityOnesCount := (executed i s).parityOnesCount,
        busy := (executed i s).busy, lastAccepted := (executed i s).lastAccepted,
        secondLastAccepted := (executed i s).secondLastAccepted, storage := (executed i s).storage,
        tail := (executed i s).tail, empty := (executed i s).empty, result := (executed i s).result,
        trace := (executed i s).trace } := by
  cases i with
  | edge d => exact executed_edge_frame
  | push b => rw [executed_push_frame]
  | _ => cases hi

/-- INIT writes every register of the block, and neither the storage nor the trace (43_facade.md R171). -/
theorem executed_init (s : State) : executed .init s = (initialized s).returning .nothing := rfl

/-- What no operation writes: a field that none of the frames names. -/
theorem executed_unwritten {α : Type} (f : State → α) (i : Instr) (s : State)
    (hproducer : issuer i = .producer → f (executed i s) = f s)
    (hconsumer : issuer i = .consumer → i ≠ .init → f (executed i s) = f s)
    (hinit : f ((initialized s).returning .nothing) = f s) : f (executed i s) = f s := by
  cases hi : issuer i with
  | producer => exact hproducer hi
  | consumer =>
    by_cases hne : i = .init
    · rw [hne]; exact hinit
    · exact hconsumer hi hne

@[simp] theorem executed_cfg (i : Instr) (s : State) : (executed i s).cfg = s.cfg :=
  executed_unwritten State.cfg i s (fun hi => by rw [executed_producer_frame hi])
    (fun hi hne => by rw [executed_consumer_frame hi hne]) rfl

@[simp] theorem executed_context (i : Instr) (s : State) : (executed i s).context = s.context :=
  executed_unwritten State.context i s (fun hi => by rw [executed_producer_frame hi])
    (fun hi hne => by rw [executed_consumer_frame hi hne]) rfl

/-! ## The storage -/

/-- The framer writes the storage at `next(tail)` only (20_memory.md section 4). -/
theorem read_framed_storage {a : Nat} (ha : a ≠ s.next s.tail) :
    Memory.read (framed d s).storage a = Memory.read s.storage a := by
  rw [framed_storage, framedStorage]
  split
  · exact Memory.read_write_other ha
  · rfl

theorem read_executed_edge_storage {a : Nat} (ha : a ≠ s.next s.tail) :
    Memory.read (executed (.edge d) s).storage a = Memory.read s.storage a := by
  cases he : s.edgeIrqEn with
  | true => rw [executed_edge_of_enabled he]; exact read_framed_storage ha
  | false => rw [executed_edge_of_disabled he]

theorem read_executed_push_storage {a : Nat} (ha : a ≠ s.next s.tail) :
    Memory.read (executed (.push b) s).storage a = Memory.read s.storage a := by
  cases hf : s.full with
  | true => rw [executed_push_of_full hf]; rfl
  | false => rw [executed_push_of_not_full hf]; exact Memory.read_write_other ha

/-- Settles O42: the frame of each operation, and that a slot is written at `next(tail)` only. -/
theorem operationsWriteOnlyWhatTheAccessMatrixSays : Obligations.OperationsWriteOnlyWhatTheAccessMatrixSays := by
  intro s t
  have hexec {i : Instr} (h : exec i s = .next t) : t = executed i s := (exec_eq_next.1 h).2.2
  refine ⟨fun d h => ?edge, fun b h => ?push, fun h => ?pop, fun h => ?peek, fun h => ?isempty, fun h => ?getkey,
    fun h => ?isbusy, fun h => ?init⟩ <;> rw [hexec h]
  case edge => exact ⟨executed_edge_frame, fun _ => read_executed_edge_storage⟩
  case push => exact ⟨executed_push_frame, fun _ => read_executed_push_storage⟩
  case pop => exact executed_pop_frame
  case peek => rfl
  case isempty => rfl
  case getkey => exact keyRead_frame
  case isbusy => rfl
  case init => rw [executed_init, initialized_eq]; rfl

/-- Settles O49: no operation writes the configuration. -/
theorem noStepChangesTheConfiguration : Obligations.NoStepChangesTheConfiguration := by
  intro s t h
  rcases step_cases h with ⟨i, a, rest, v, hv, rfl⟩ | ⟨rest, rfl⟩
  · rw [State.leave_cfg, (exec_eq_next.1 hv).2.2, executed_cfg]
  · rfl

end Sys2Proof.Machine

/-! PROOFS. The invariant of the block: every operation and every step keeps it (10_state.md R39, R40). -/

namespace Sys2Proof.Machine

variable {s t : State} {i : Instr} {d : BitVec 1} {b : Byte} {n : Nat}

/-! ## The number of 1 bits -/

theorem onesBelow_zero (b : Byte) : onesBelow b 0 = 0 := rfl

theorem onesBelow_succ (b : Byte) (n : Nat) : onesBelow b (n + 1) = onesBelow b n + (b.getLsbD n).toNat := by
  simp [onesBelow, List.range_succ]

theorem onesBelow_congr {v w : Byte} (h : ∀ k, k < n → v.getLsbD k = w.getLsbD k) :
    onesBelow v n = onesBelow w n := by
  unfold onesBelow
  congr 1
  exact List.map_congr_left fun k hk => by rw [h k (List.mem_range.1 hk)]

theorem onesBelow_le (b : Byte) (n : Nat) : onesBelow b n ≤ n := by
  induction n with
  | zero => exact Nat.le_refl 0
  | succ n ih =>
    have := Bool.toNat_le (b.getLsbD n)
    rw [onesBelow_succ]
    omega

/-- A bit stored above the lowest `n` is the only one it adds to them. -/
theorem onesBelow_setBit_succ (v : Byte) (j : BitVec 3) (d : BitVec 1) :
    onesBelow (setBit v j d) (j.toNat + 1) = onesBelow v j.toNat + (decide (d = 1#1)).toNat := by
  have hj := j.isLt
  have hbelow : onesBelow (setBit v j d) j.toNat = onesBelow v j.toNat :=
    onesBelow_congr fun k hk => by rw [getLsbD_setBit v j d (by omega), if_neg (by omega)]
  rw [onesBelow_succ, hbelow, getLsbD_setBit v j d hj, if_pos rfl]

/-! ## The parts of the invariant read a few fields each -/

theorem FramerInv.congr (h : FramerInv s) (hcfg : t.cfg = s.cfg) (hfsm : t.fsmState = s.fsmState)
    (hindex : t.bitIndex = s.bitIndex) (hacc : t.accumulator = s.accumulator)
    (hcount : t.parityOnesCount = s.parityOnesCount) (hbusy : t.busy = s.busy) : FramerInv t where
  index_zero := by rw [hfsm, hindex]; exact h.index_zero
  receiving_ones := by rw [hfsm, hindex, hcount, hacc]; exact h.receiving_ones
  receiving_rest := by rw [hfsm, hindex, hacc]; exact h.receiving_rest
  received_ones := by rw [hfsm, hcount, hacc]; exact h.received_ones
  busy_in_frame := by rw [hfsm, hbusy]; exact h.busy_in_frame
  busy_clear := by rw [hfsm, hbusy, hcfg]; exact h.busy_clear

theorem QueueInv.congr (h : QueueInv s) (hcfg : t.cfg = s.cfg) (hhead : t.head = s.head) (htail : t.tail = s.tail)
    (hempty : t.empty = s.empty) : QueueInv t where
  head_lt := by rw [hhead, hcfg]; exact h.head_lt
  tail_lt := by rw [htail, hcfg]; exact h.tail_lt
  empty_head := by rw [hempty, hhead, htail, hcfg]; exact h.empty_head

theorem StorageInv.congr (h : StorageInv s) (hcfg : t.cfg = s.cfg) (hstorage : t.storage = s.storage) :
    StorageInv t where
  wf := by rw [hstorage]; exact h.wf
  within := by rw [hstorage, hcfg]; exact h.within

/-- At rest, with `busy` cleared, the framer's invariant holds (10_state.md R39). -/
theorem framerInv_at_rest (hfsm : s.fsmState = .awaitStart) (hindex : s.bitIndex = 0) (hbusy : s.busy = false) :
    FramerInv s where
  index_zero _ := hindex
  receiving_ones h := by simp [hfsm] at h
  receiving_rest h := by simp [hfsm] at h
  received_ones h := by simp [hfsm] at h
  busy_in_frame h := absurd hfsm h
  busy_clear _ h := by simp [hbusy] at h

/-! ## The framer keeps its invariant, state by state -/

theorem framerInv_edgeAwaitStart (h : FramerInv s) : FramerInv (edgeAwaitStart d s) := by
  unfold edgeAwaitStart
  split
  case isTrue =>
    exact
      { index_zero := fun _ => rfl
        receiving_ones := fun _ => rfl
        receiving_rest := fun _ _ _ => BitVec.getLsbD_zero
        received_ones := fun h => by simp at h
        busy_in_frame := fun _ => rfl
        busy_clear := fun _ _ => by simp }
  case isFalse => exact h.congr rfl rfl rfl rfl rfl rfl

/-- After a data bit the count is that of the bits received so far (10_state.md R39 (b)). -/
theorem toNat_count_edgeReceivingBits (h : FramerInv s) (hfsm : s.fsmState = .receivingBits) :
    (edgeReceivingBits d s).parityOnesCount.toNat =
      onesBelow (edgeReceivingBits d s).accumulator (s.bitIndex.toNat + 1) := by
  have hones := h.receiving_ones hfsm
  have hle := onesBelow_le s.accumulator s.bitIndex.toNat
  have hlt := s.bitIndex.isLt
  show (if d = 1#1 then s.parityOnesCount + 1 else s.parityOnesCount).toNat =
    onesBelow (setBit s.accumulator s.bitIndex d) (s.bitIndex.toNat + 1)
  rw [onesBelow_setBit_succ, ← hones]
  by_cases hd : d = 1#1
  · rw [if_pos hd, decide_eq_true hd]
    exact BitVec.toNat_add_of_lt (by rw [hones]; exact Nat.lt_of_le_of_lt (Nat.add_le_add_right hle 1) (by omega))
  · rw [if_neg hd, decide_eq_false hd]
    rfl

theorem framerInv_edgeReceivingBits (h : FramerInv s) (hfsm : s.fsmState = .receivingBits) :
    FramerInv (edgeReceivingBits d s) := by
  have hbusy : (edgeReceivingBits d s).busy = true := h.busy_in_frame (by simp [hfsm])
  have hcount := toNat_count_edgeReceivingBits (d := d) h hfsm
  by_cases hlast : s.bitIndex = 7#3
  · obtain ⟨hindex, hstate⟩ := edgeReceivingBits_of_last d hlast
    exact
      { index_zero := fun _ => hindex
        receiving_ones := fun h => by simp [hstate] at h
        receiving_rest := fun h => by simp [hstate] at h
        received_ones := fun _ => by rw [hcount, hlast]; rfl
        busy_in_frame := fun _ => hbusy
        busy_clear := fun _ _ => by simp [hstate] }
  · obtain ⟨hindex, hstate⟩ := edgeReceivingBits_of_not_last d hlast
    have hsucc : (edgeReceivingBits d s).bitIndex.toNat = s.bitIndex.toNat + 1 := by
      rw [hindex]; bv_omega
    have hrest (k : Nat) (hk : s.bitIndex.toNat + 1 ≤ k) : (edgeReceivingBits d s).accumulator.getLsbD k = false := by
      by_cases hk8 : k < 8
      · show (setBit s.accumulator s.bitIndex d).getLsbD k = false
        rw [getLsbD_setBit _ _ _ hk8, if_neg (by omega), h.receiving_rest hfsm k (by omega)]
      · exact BitVec.getLsbD_of_ge _ _ (by omega)
    exact
      { index_zero := fun h => absurd hstate h
        receiving_ones := fun _ => by rw [hcount, hsucc]
        receiving_rest := fun _ k hk => hrest k (by omega)
        received_ones := fun h => by simp [hstate] at h
        busy_in_frame := fun _ => hbusy
        busy_clear := fun _ _ => by simp [hstate] }

theorem framerInv_edgeAwaitParity (h : FramerInv s) (hfsm : s.fsmState = .awaitParity) :
    FramerInv (edgeAwaitParity d s) := by
  have hindex : s.bitIndex = 0 := h.index_zero (by simp [hfsm])
  unfold edgeAwaitParity
  split
  case isTrue =>
    exact
      { index_zero := fun _ => hindex
        receiving_ones := fun h => by simp at h
        receiving_rest := fun h => by simp at h
        received_ones := fun _ => h.received_ones (.inl hfsm)
        busy_in_frame := fun _ => h.busy_in_frame (by simp [hfsm])
        busy_clear := fun _ _ => by simp }
  case isFalse =>
    exact
      { index_zero := fun _ => hindex
        receiving_ones := fun h => by simp at h
        receiving_rest := fun h => by simp at h
        received_ones := fun h => by simp at h
        busy_in_frame := fun h => by simp at h
        busy_clear := fun hclear hbusy => by simp_all [State.busyAfterParityFail] }

theorem framerInv_framed (h : FramerInv s) : FramerInv (framed d s) := by
  unfold framed
  split
  case h_1 => exact framerInv_edgeAwaitStart h
  case h_2 hfsm => exact framerInv_edgeReceivingBits h hfsm
  case h_3 hfsm => exact framerInv_edgeAwaitParity h hfsm
  case h_4 hfsm =>
    refine framerInv_at_rest rfl ?_ rfl
    rw [stopChecked_frame]
    exact h.index_zero (by simp [hfsm])

/-! ## Every operation keeps the invariant -/

/-- Two states whose queues are the same registers and storage. -/
structure SameQueue (t s : State) : Prop where
  cfg : t.cfg = s.cfg
  storage : t.storage = s.storage
  head : t.head = s.head
  tail : t.tail = s.tail
  empty : t.empty = s.empty

theorem SameQueue.refl (s : State) : SameQueue s s := ⟨rfl, rfl, rfl, rfl, rfl⟩

theorem SameQueue.queueInv (h : SameQueue t s) (hq : QueueInv s) : QueueInv t :=
  hq.congr h.cfg h.head h.tail h.empty

theorem SameQueue.storageInv (h : SameQueue t s) (hs : StorageInv s) : StorageInv t := hs.congr h.cfg h.storage

theorem SameQueue.unread_eq (h : SameQueue t s) : t.unread = s.unread := by
  simp only [State.unread, State.count, h.cfg, h.storage, h.head, h.tail, h.empty]

/-- The queue with a byte added at the end, if there is room (41_queue.md R131). -/
def State.appended (b : Byte) (s : State) : State := if s.full then s else pushed b s

/-- The state whose queue is the queue after an operation (10_state.md section 6). -/
def queueAfter : Instr → State → State
  | .edge d, s => if s.accepts d then s.appended s.accumulator else s
  | .push b, s => s.appended b
  | .pop, s => s.dropped
  | .peek, s => s
  | .isempty, s => s
  | .getkey, s => s.dropped
  | .isbusy, s => s
  | .init, s => initialized s

theorem queueAfter_edge_of_accepts (ha : s.accepts d = true) :
    queueAfter (.edge d) s = s.appended s.accumulator := if_pos ha

theorem queueAfter_edge_of_not_accepts (ha : ¬ s.accepts d = true) : queueAfter (.edge d) s = s := if_neg ha

theorem sameQueue_framed (he : s.edgeIrqEn = true) : SameQueue (framed d s) (queueAfter (.edge d) s) := by
  have hstart (hne : s.fsmState ≠ .awaitStop) : queueAfter (.edge d) s = s :=
    queueAfter_edge_of_not_accepts fun ha => hne (accepts_iff.1 ha).2.1
  unfold framed
  split
  case h_1 hfsm =>
    rw [hstart (by simp [hfsm])]
    unfold edgeAwaitStart
    split <;> exact ⟨rfl, rfl, rfl, rfl, rfl⟩
  case h_2 hfsm =>
    rw [hstart (by simp [hfsm])]
    exact ⟨rfl, rfl, rfl, rfl, rfl⟩
  case h_3 hfsm =>
    rw [hstart (by simp [hfsm])]
    unfold edgeAwaitParity
    split <;> exact ⟨rfl, rfl, rfl, rfl, rfl⟩
  case h_4 hfsm =>
    simp only [queueAfter, State.accepts, State.appended, he, hfsm, stopChecked]
    by_cases hd : d = 1#1
    · cases hsup : s.suppress s.accumulator with
      | true => simp only [hd]; exact ⟨rfl, rfl, rfl, rfl, rfl⟩
      | false => cases hf : s.full <;> simp only [hd] <;> exact ⟨rfl, rfl, rfl, rfl, rfl⟩
    · simp only [hd, beq_eq_false_iff_ne.2 hd]
      exact ⟨rfl, rfl, rfl, rfl, rfl⟩

theorem sameQueue_keyRead : SameQueue s.keyRead s.dropped := by
  unfold State.keyRead
  split
  case h_1 hnone =>
    rw [dropped_of_empty (by_contra fun he => by simp [State.oldest, he] at hnone)]
    exact ⟨rfl, rfl, rfl, rfl, rfl⟩
  case h_2 hsome =>
    rw [dropped_of_nonempty (Bool.eq_false_iff.2 fun he => by simp [State.oldest, he] at hsome), decodeMake_frame]
    exact ⟨rfl, rfl, rfl, rfl, rfl⟩
  case h_3 => exact ⟨rfl, rfl, rfl, rfl, rfl⟩

/-- What every operation does to the queue. -/
theorem sameQueue_executed (i : Instr) (s : State) : SameQueue (executed i s) (queueAfter i s) := by
  cases i with
  | edge d =>
    cases he : s.edgeIrqEn with
    | true =>
      have h := sameQueue_framed (d := d) he
      rw [executed_edge_of_enabled he]
      exact ⟨h.cfg, h.storage, h.head, h.tail, h.empty⟩
    | false =>
      rw [executed_edge_of_disabled he, queueAfter_edge_of_not_accepts (by simp [State.accepts, he])]
      exact .refl s
  | push b =>
    dsimp only [executed, queueAfter, State.appended]
    split <;> exact ⟨rfl, rfl, rfl, rfl, rfl⟩
  | pop => exact ⟨rfl, rfl, rfl, rfl, rfl⟩
  | peek => exact ⟨rfl, rfl, rfl, rfl, rfl⟩
  | isempty => exact ⟨rfl, rfl, rfl, rfl, rfl⟩
  | getkey => exact sameQueue_keyRead
  | isbusy => exact ⟨rfl, rfl, rfl, rfl, rfl⟩
  | init => exact ⟨rfl, rfl, rfl, rfl, rfl⟩

theorem queueInv_appended (h : QueueInv s) : QueueInv (s.appended b) := by
  unfold State.appended
  split
  · exact h
  · exact pushed_queueInv h

theorem queueInv_dropped (h : QueueInv s) : QueueInv s.dropped := by
  unfold State.dropped
  split
  · exact h
  · exact popped_queueInv h

/-- With the indices at their reset values the queue's invariant holds (10_state.md R28, R29). -/
theorem queueInv_of_reset (hc : 1 ≤ s.cfg.capacity) (hhead : s.head = 0) (htail : s.tail = s.cfg.capacity - 1) :
    QueueInv s where
  head_lt := by rw [hhead]; exact hc
  tail_lt := by rw [htail]; exact Nat.sub_lt hc Nat.one_pos
  empty_head _ := by rw [hhead, htail, Nat.sub_add_cancel hc, Nat.mod_self]

theorem queueInv_initialized (hc : 1 ≤ s.cfg.capacity) : QueueInv (initialized s) := by
  rw [initialized_eq]
  exact queueInv_of_reset hc rfl rfl

theorem QueueInv.capacity_pos (h : QueueInv s) : 1 ≤ s.cfg.capacity := Nat.lt_of_le_of_lt (Nat.zero_le _) h.head_lt

theorem queueInv_queueAfter (i : Instr) (h : QueueInv s) : QueueInv (queueAfter i s) := by
  cases i with
  | edge d =>
    by_cases ha : s.accepts d = true
    · rw [queueAfter_edge_of_accepts ha]; exact queueInv_appended h
    · rw [queueAfter_edge_of_not_accepts ha]; exact h
  | push b => exact queueInv_appended h
  | pop => exact queueInv_dropped h
  | peek => exact h
  | isempty => exact h
  | getkey => exact queueInv_dropped h
  | isbusy => exact h
  | init => exact queueInv_initialized h.capacity_pos

theorem storageInv_appended (hc : 1 ≤ s.cfg.capacity) (h : StorageInv s) : StorageInv (s.appended b) := by
  unfold State.appended
  split
  · exact h
  · exact pushed_storageInv hc h

theorem storageInv_dropped (h : StorageInv s) : StorageInv s.dropped := by
  rw [dropped_frame]
  exact h.congr rfl rfl

theorem storageInv_queueAfter (i : Instr) (hc : 1 ≤ s.cfg.capacity) (h : StorageInv s) :
    StorageInv (queueAfter i s) := by
  cases i with
  | edge d =>
    by_cases ha : s.accepts d = true
    · rw [queueAfter_edge_of_accepts ha]; exact storageInv_appended hc h
    · rw [queueAfter_edge_of_not_accepts ha]; exact h
  | push b => exact storageInv_appended hc h
  | pop => exact storageInv_dropped h
  | peek => exact h
  | isempty => exact h
  | getkey => exact storageInv_dropped h
  | isbusy => exact h
  | init => exact h.congr rfl rfl

theorem framerInv_executed (i : Instr) (h : FramerInv s) : FramerInv (executed i s) := by
  by_cases hi : issuer i = .consumer
  · by_cases hne : i = .init
    · subst hne
      exact framerInv_at_rest rfl rfl rfl
    · rw [executed_consumer_frame hi hne]
      exact h.congr rfl rfl rfl rfl rfl rfl
  · cases i with
    | edge d =>
      cases he : s.edgeIrqEn with
      | true => rw [executed_edge_of_enabled he]; exact (framerInv_framed h).congr rfl rfl rfl rfl rfl rfl
      | false => rw [executed_edge_of_disabled he]; exact h
    | push b =>
      rw [executed_push_frame]
      exact h.congr rfl rfl rfl rfl rfl rfl
    | _ => exact absurd rfl hi

/-- Every operation keeps the invariant of the block (10_state.md R39, R40). -/
theorem BlockInv.executed (i : Instr) (h : BlockInv s) : BlockInv (executed i s) where
  cfg := by rw [executed_cfg]; exact h.cfg
  framer := framerInv_executed i h.framer
  queue := (sameQueue_executed i s).queueInv (queueInv_queueAfter i h.queue)
  storage := (sameQueue_executed i s).storageInv (storageInv_queueAfter i h.queue.capacity_pos h.storage)

/-- The invariant of the block does not look at the context or the agenda. -/
theorem BlockInv.turn (h : BlockInv s) (a : Agent) (rest : List Turn) :
    BlockInv { s with context := a, agenda := rest } where
  cfg := h.cfg
  framer := h.framer.congr rfl rfl rfl rfl rfl rfl
  queue := h.queue.congr rfl rfl rfl rfl
  storage := h.storage.congr rfl rfl

theorem BlockInv.fits (h : BlockInv s) (i : Instr) : fits i s := fits_of_queueInv i h.queue

/-- Settles O48: in the invariant an operation reaches no absent slot, so it completes as `executed`. -/
theorem everyOperationCompletes : Obligations.EveryOperationCompletes :=
  fun i s h hx => ⟨executed i s, exec_of_fits hx (h.fits i), h.executed i⟩

/-- Settles O45: a step runs an operation, which keeps the invariant, or takes a turn off the agenda. -/
theorem everyStepKeepsTheInvariant : Obligations.EveryStepKeepsTheInvariant := by
  intro s t h hstep
  rcases step_cases hstep with ⟨i, a, rest, v, hv, rfl⟩ | ⟨rest, rfl⟩
  · have hblock : BlockInv v := (exec_eq_next.1 hv).2.2 ▸ (h.block.turn a rest).executed i
    exact ⟨hblock.turn .consumer v.agenda, rfl⟩
  · exact ⟨h.block.turn s.context rest, h.context⟩

/-- A configuration is well-formed only with a slot to write. -/
theorem capacity_pos_of_wf {c : Config} (h : c.wf = true) : 1 ≤ c.capacity := by
  simp only [Config.wf, Bool.and_eq_true, decide_eq_true_eq] at h
  exact h.1.1

theorem inv_powerOn {c : Config} (h : c.wf = true) : Inv (State.powerOn c) where
  block :=
    { cfg := h
      framer := framerInv_at_rest rfl rfl rfl
      queue := queueInv_of_reset (capacity_pos_of_wf h) rfl rfl
      storage := ⟨rfl, rfl⟩ }
  context := rfl

/-- Settles O44: power-on leaves the framer at rest and the indices at their reset values. -/
theorem invariantHoldsAtPowerOn : Obligations.InvariantHoldsAtPowerOn :=
  ⟨fun _ => inv_powerOn, inv_powerOn (by decide)⟩

end Sys2Proof.Machine

/-! PROOFS. The encoding (30_encoding.md). -/

namespace Sys2Proof.Machine

/-! ## The fields of a word -/

theorem toNat_opcodeOf (w : Word) : (opcodeOf w).toNat = w.toNat / 256 := by
  rw [opcodeOf, BitVec.extractLsb'_toNat, Nat.shiftRight_eq_div_pow]
  have := w.isLt
  omega

theorem toNat_argumentOf (w : Word) : (argumentOf w).toNat = w.toNat % 256 := by
  simp [argumentOf, BitVec.extractLsb'_toNat]

theorem toNat_bitOf (w : Word) : (bitOf w).toNat = w.toNat % 2 := by
  simp [bitOf, BitVec.extractLsb'_toNat]

theorem toNat_bitMbzOf (w : Word) : (bitMbzOf w).toNat = w.toNat % 256 / 2 := by
  rw [bitMbzOf, BitVec.extractLsb'_toNat, Nat.shiftRight_eq_div_pow]
  omega

theorem argumentOf_eq_zero_iff {w : Word} : argumentOf w = 0#8 ↔ w.toNat % 256 = 0 := by
  rw [← BitVec.toNat_inj, toNat_argumentOf, BitVec.toNat_ofNat, Nat.zero_mod]

theorem bitMbzOf_eq_zero_iff {w : Word} : bitMbzOf w = 0#7 ↔ w.toNat % 256 / 2 = 0 := by
  rw [← BitVec.toNat_inj, toNat_bitMbzOf, BitVec.toNat_ofNat, Nat.zero_mod]

/-- The word of an operation is its opcode and its argument (30_encoding.md R70). -/
theorem toNat_encode (i : Instr) : (encode i).toNat = (opcode i).toNat * 256 + (argument i).toNat := by
  have hop := (opcode i).isLt
  have harg := (argument i).isLt
  have hhigh : ((opcode i).setWidth 16 <<< 8).toNat = 2 ^ 8 * (opcode i).toNat := by
    rw [BitVec.toNat_shiftLeft, BitVec.toNat_setWidth, Nat.shiftLeft_eq]
    omega
  have hlow : ((argument i).setWidth 16).toNat = (argument i).toNat := by
    rw [BitVec.toNat_setWidth]
    omega
  rw [encode, BitVec.toNat_or, hhigh, hlow, ← Nat.two_pow_add_eq_or_of_lt harg]
  omega

theorem opcodeOf_encode (i : Instr) : opcodeOf (encode i) = opcode i := by
  have := (argument i).isLt
  rw [← BitVec.toNat_inj, toNat_opcodeOf, toNat_encode]
  omega

theorem argumentOf_encode (i : Instr) : argumentOf (encode i) = argument i := by
  have := (argument i).isLt
  rw [← BitVec.toNat_inj, toNat_argumentOf, toNat_encode]
  omega

/-- A word is an operation's encoding when it has its opcode and its argument. -/
theorem eq_encode_iff {w : Word} {i : Instr} :
    w = encode i ↔ w.toNat / 256 = (opcode i).toNat ∧ w.toNat % 256 = (argument i).toNat := by
  have := (argument i).isLt
  rw [← BitVec.toNat_inj, toNat_encode]
  omega

/-! ## The decoder -/

theorem decodeNone_eq_instr {w : Word} {i j : Instr} :
    decodeNone w i = .instr j ↔ w.toNat % 256 = 0 ∧ i = j := by
  rw [decodeNone, ← argumentOf_eq_zero_iff]
  split <;> simp [*]

/-- The encoder undoes the decoder: by the rows of the opcode map. -/
theorem eq_encode_of_decode {w : Word} {i : Instr} (h : decode w = .instr i) : w = encode i := by
  rw [eq_encode_iff]
  unfold decode at h
  split at h
  case h_1 hop =>
    rw [toNat_opcodeOf] at hop
    split at h
    case isTrue hmbz =>
      cases h
      rw [bitMbzOf_eq_zero_iff] at hmbz
      refine ⟨hop, ?_⟩
      rw [argument, BitVec.toNat_setWidth, toNat_bitOf]
      omega
    case isFalse => cases h
  case h_2 hop =>
    cases h
    exact ⟨toNat_opcodeOf w ▸ hop, (toNat_argumentOf w).symm⟩
  case h_9 => cases h
  all_goals
    obtain ⟨harg, rfl⟩ := decodeNone_eq_instr.1 h
    exact ⟨toNat_opcodeOf w ▸ ‹_›, harg⟩

/-- The decoder undoes the encoder. -/
theorem decode_encode (i : Instr) : decode (encode i) = .instr i := by
  cases i with
  | edge d => revert d; decide
  | push b =>
    rw [decode, opcodeOf_encode, argumentOf_encode]
    rfl
  | pop => decide
  | peek => decide
  | isempty => decide
  | getkey => decide
  | isbusy => decide
  | init => decide

/-- Settles O2: each of the two undoes the other. -/
theorem decodeAndEncodeAgree : Obligations.DecodeAndEncodeAgree :=
  fun _ i => ⟨eq_encode_of_decode, fun h => h ▸ decode_encode i⟩

theorem encode_injective : Function.Injective encode := fun i j h => by
  have hi := decode_encode i
  rw [h, decode_encode] at hi
  exact (Decoded.instr.inj hi).symm

/-! ## The rows of the opcode map -/

theorem rowMask_eq (i : Instr) :
    rowMask i = if opcode i = 0x01#8 then 0xFFFE#16 else if opcode i = 0x02#8 then 0xFF00#16 else 0xFFFF#16 := by
  cases i <;> rfl

theorem rowMatch_eq (i : Instr) : rowMatch i = (opcode i).setWidth 16 <<< 8 := by
  cases i <;> rfl

theorem encode_selects_row (i : Instr) : encode i &&& rowMask i = rowMatch i := by
  cases i with
  | edge d => exact (Laws.SelectsItsRow.edge d).1
  | push b => exact (Laws.SelectsItsRow.push b).1
  | pop => exact Laws.SelectsItsRow.pop.1
  | peek => exact Laws.SelectsItsRow.peek.1
  | isempty => exact Laws.SelectsItsRow.isempty.1
  | getkey => exact Laws.SelectsItsRow.getkey.1
  | isbusy => exact Laws.SelectsItsRow.isbusy.1
  | init => exact Laws.SelectsItsRow.init.1

/-- A word that selects a row encodes an operation of that row. -/
theorem exists_encode_of_row {w : Word} {i : Instr} (h : w &&& rowMask i = rowMatch i) :
    ∃ j, w = encode j ∧ opcode j = opcode i := by
  have hfull (hmask : rowMask i = BitVec.allOnes 16) : w = rowMatch i := by
    rwa [hmask, BitVec.and_allOnes] at h
  cases i with
  | edge d =>
    refine ⟨.edge (bitOf w), ?_, rfl⟩
    have hbit : w &&& 0x0001#16 = (bitOf w).setWidth 16 := by
      ext k hk
      interval_cases k <;> simp [bitOf]
    calc w = (w &&& 0xFFFE#16) ||| (w &&& 0x0001#16) := by
            rw [← BitVec.and_or_distrib_left]; exact BitVec.and_allOnes.symm
      _ = 0x0100#16 ||| (bitOf w).setWidth 16 := by rw [show w &&& 0xFFFE#16 = 0x0100#16 from h, hbit]
      _ = encode (.edge (bitOf w)) := by generalize bitOf w = d; revert d; decide
  | push b =>
    refine ⟨.push (argumentOf w), ?_, rfl⟩
    have harg : w &&& 0x00FF#16 = (argumentOf w).setWidth 16 := by
      ext k hk
      interval_cases k <;> simp [argumentOf]
    calc w = (w &&& 0xFF00#16) ||| (w &&& 0x00FF#16) := by
            rw [← BitVec.and_or_distrib_left]; exact BitVec.and_allOnes.symm
      _ = encode (.push (argumentOf w)) := by rw [show w &&& 0xFF00#16 = 0x0200#16 from h, harg]; rfl
  | pop => exact ⟨.pop, hfull rfl, rfl⟩
  | peek => exact ⟨.peek, hfull rfl, rfl⟩
  | isempty => exact ⟨.isempty, hfull rfl, rfl⟩
  | getkey => exact ⟨.getkey, hfull rfl, rfl⟩
  | isbusy => exact ⟨.isbusy, hfull rfl, rfl⟩
  | init => exact ⟨.init, hfull rfl, rfl⟩

/-- Settles O3: a row is selected by the words of its operations, and those are the words that decode to them. -/
theorem maskAndMatchSelectTheDecodedRow : Obligations.MaskAndMatchSelectTheDecodedRow := by
  intro w i
  constructor
  case mp =>
    intro h
    obtain ⟨j, rfl, hop⟩ := exists_encode_of_row h
    exact ⟨j, decode_encode j, hop⟩
  case mpr =>
    rintro ⟨j, hj, hop⟩
    rw [eq_encode_of_decode hj, rowMask_eq, rowMatch_eq, ← hop, ← rowMask_eq, ← rowMatch_eq, encode_selects_row]

/-! ## The words that are no operation -/

theorem decodeNone_eq_illegal {w : Word} {i : Instr} {e : DecodeError} :
    decodeNone w i = .illegal e ↔ w.toNat % 256 ≠ 0 ∧ e = .nonzeroMbz := by
  rw [decodeNone, Ne, ← argumentOf_eq_zero_iff]
  split <;> simp [*, eq_comm (b := e)]

/-- The reasons of refusal, by the rows of the opcode map (30_encoding.md R75). -/
theorem decode_eq_illegal {w : Word} {e : DecodeError} :
    decode w = .illegal e ↔
      (e = .reservedOpcode ∧ (w.toNat / 256 = 0 ∨ 9 ≤ w.toNat / 256)) ∨
      (e = .nonzeroMbz ∧ ((w.toNat / 256 = 1 ∧ w.toNat % 256 / 2 ≠ 0) ∨
        (3 ≤ w.toNat / 256 ∧ w.toNat / 256 ≤ 8 ∧ w.toNat % 256 ≠ 0))) := by
  unfold decode
  rw [toNat_opcodeOf]
  split
  case h_1 hop => simp only [hop, bitMbzOf_eq_zero_iff]; split <;> simp [*, eq_comm (b := e)]
  case h_2 hop => simp [hop]
  case h_9 =>
    have hout : w.toNat / 256 = 0 ∨ 9 ≤ w.toNat / 256 := by grind
    have hrows : ¬ ((w.toNat / 256 = 1 ∧ w.toNat % 256 / 2 ≠ 0) ∨
        (3 ≤ w.toNat / 256 ∧ w.toNat / 256 ≤ 8 ∧ w.toNat % 256 ≠ 0)) := by omega
    simp only [hout, hrows, and_true, and_false, or_false, Decoded.illegal.injEq, eq_comm (b := e)]
  all_goals
    rename_i hop
    rw [decodeNone_eq_illegal, hop]
    simp [and_comm]

/-- Settles O4: `decode_eq_illegal` for each of the two reasons. -/
theorem decoderGivesTheReasonsOfRefusal : Obligations.DecoderGivesTheReasonsOfRefusal := by
  intro w
  refine ⟨by simp [decode_eq_illegal], by simp [decode_eq_illegal], ?total⟩
  case total =>
    cases hd : decode w with
    | instr i => exact .inl ⟨i, rfl⟩
    | illegal e => cases e <;> simp

/-- Every operation, once. -/
def allInstrs : List Instr :=
  [.edge 0, .edge 1] ++ (List.finRange 256).map (fun b => .push (BitVec.ofFin b)) ++
    [.pop, .peek, .isempty, .getkey, .isbusy, .init]

theorem mem_allInstrs (i : Instr) : i ∈ allInstrs := by
  cases i with
  | edge d => revert d; decide
  | push b => simp [allInstrs]
  | _ => simp [allInstrs]

theorem nodup_allInstrs : allInstrs.Nodup := by
  have hpush : ((List.finRange 256).map fun b => Instr.push (BitVec.ofFin b)).Nodup :=
    (List.nodup_finRange 256).map fun a b h => by simpa using h
  simp [allInstrs, List.nodup_append, hpush]

/-- The number of operations with a property: those of EDGE, of PUSH and of the other rows. -/
theorem countP_allInstrs (p : Instr → Bool) :
    allInstrs.countP p = [Instr.edge 0, .edge 1].countP p +
      (List.finRange 256).countP (fun b => p (.push (BitVec.ofFin b))) +
      [Instr.pop, .peek, .isempty, .getkey, .isbusy, .init].countP p := by
  rw [allInstrs, List.countP_append, List.countP_append, List.countP_map]
  rfl

/-- The encodings of an opcode are as many as its operations. -/
theorem length_filter_opcode (o : Byte) :
    ((allInstrs.map encode).filter fun w => opcodeOf w == o).length = allInstrs.countP fun i => opcode i == o := by
  rw [← List.countP_eq_length_filter, List.countP_map]
  simp [Function.comp_def, opcodeOf_encode]

/-- Settles O5: the legal words are the encodings of `allInstrs`. -/
theorem legalWordsAreThe264 : Obligations.LegalWordsAreThe264 := by
  refine ⟨allInstrs.map encode, nodup_allInstrs.map encode_injective, ?length, ?mem, ?edge, ?push, ?others⟩
  case length => simp [allInstrs]
  case mem =>
    intro w
    simp only [List.mem_map, mem_allInstrs, true_and]
    exact exists_congr fun i => ⟨fun h => h ▸ decode_encode i, fun h => (eq_encode_of_decode h).symm⟩
  case edge => rw [length_filter_opcode, countP_allInstrs]; simp [opcode]
  case push => rw [length_filter_opcode, countP_allInstrs]; simp [opcode]
  case others =>
    intro o ho
    rw [length_filter_opcode, countP_allInstrs]
    simp only [List.mem_cons, List.not_mem_nil, or_false] at ho
    rcases ho with rfl | rfl | rfl | rfl | rfl | rfl <;> simp [opcode]

/-- Settles O1: each word is one evaluation of the decoder. -/
theorem specWordsDecodeAsWritten : Obligations.SpecWordsDecodeAsWritten := by
  unfold Obligations.SpecWordsDecodeAsWritten
  decide

/-! ## Frames as words -/

theorem encode_edge (d : BitVec 1) : encode (.edge d) = 0x0100#16 + d.setWidth 16 := by
  revert d; decide

theorem encode_edge_complement (d : BitVec 1) : encode (.edge (1 - d)) = 0x0101#16 - d.setWidth 16 := by
  revert d; decide

/-- The parity bit makes the number of 1 bits odd (30_encoding.md R78). -/
theorem popcount_add_oddParityBit (b : Byte) : (popcount b + (oddParityBit b).toNat) % 2 = 1 := by
  rw [oddParityBit, BitVec.toNat_ofNat]
  omega

/-- One bit of a byte, as the operand of an EDGE. -/
theorem extractLsb'_one_eq_ofBool (b : Byte) (k : Nat) : b.extractLsb' k 1 = BitVec.ofBool (b.getLsbD k) := by
  ext j hj
  simp [Nat.lt_one_iff.1 hj]

theorem encode_dataEdges (b : Byte) :
    (dataEdges b).map encode = (List.range 8).map fun k => 0x0100#16 + BitVec.ofNat 16 (b.getLsbD k).toNat := by
  rw [dataEdges, List.map_map]
  refine List.map_congr_left fun k _ => ?_
  rw [Function.comp_apply, encode_edge, extractLsb'_one_eq_ofBool]
  cases b.getLsbD k <;> rfl

/-- The words of a frame with any parity and stop bit (30_encoding.md R78). -/
theorem encode_frameWith (b : Byte) (p stop : BitVec 1) :
    (frameWith b p stop).map encode =
      0x0100#16 :: ((List.range 8).map fun k => 0x0100#16 + BitVec.ofNat 16 (b.getLsbD k).toNat) ++
        [encode (.edge p), encode (.edge stop)] := by
  rw [← encode_dataEdges]
  simp only [frameWith, List.map_cons, List.map_append, List.map_nil]
  rfl

/-- Settles O6: each frame is a `frameWith`, with the odd-parity bit or its complement. -/
theorem frameIsElevenWordsOfOddParity : Obligations.FrameIsElevenWordsOfOddParity := by
  intro b
  refine ⟨oddParityBit b, popcount_add_oddParityBit b, ?good, ?badpar, ?badstop⟩
  case good => rw [frame, encode_frameWith, encode_edge]; rfl
  case badpar => rw [frameBadpar, encode_frameWith, encode_edge_complement]; rfl
  case badstop => rw [frameBadstop, encode_frameWith, encode_edge]; rfl

end Sys2Proof.Machine

/-! PROOFS. Steps, contexts, refusals and faults (20_memory.md section 4, 60_exceptions.md). -/

namespace Sys2Proof.Machine

variable {s t : State} {i : Instr} {a : Agent} {w : Word} {rest : List Turn} {b : Byte} {d : BitVec 1}

/-! ## What a step is, by the head of the agenda -/

theorem step_of_issue (ha : s.agenda = .issue a w :: rest) (hturn : ¬ (a = .consumer ∧ s.decPhase = .afterBreak))
    (hd : decode w = .instr i) : step s = leaving (exec i { s with agenda := rest, context := a }) := by
  simp only [step, fetch, ha, if_neg hturn, fetchIssue, hd]
  rfl

theorem step_of_issue_illegal {e : DecodeError} (ha : s.agenda = .issue a w :: rest)
    (hturn : ¬ (a = .consumer ∧ s.decPhase = .afterBreak)) (hd : decode w = .illegal e) :
    step s = .refused (refusalOf e) := by
  simp only [step, fetch, ha, if_neg hturn, fetchIssue, hd]

/-- In the window the consumer's turn is phase 2, whatever it would issue (42_decoder.md R152). -/
theorem step_of_issue_in_window (ha : s.agenda = .issue a w :: rest)
    (hturn : a = .consumer ∧ s.decPhase = .afterBreak) :
    step s = leaving (exec .getkey { s with context := .consumer }) := by
  have hf : fetch s = resumeGetkey s := by simp only [fetch, ha, if_pos hturn]
  rw [step, hf]
  rfl

theorem step_of_resume_in_window (hp : s.decPhase = .afterBreak) (ha : s.agenda = .resume :: rest) :
    step s = leaving (exec .getkey { s with agenda := rest, context := .consumer }) := by
  have hf : fetch s = resumeGetkey { s with agenda := rest } := by simp only [fetch, ha, if_pos hp]
  rw [step, hf]
  rfl

theorem step_of_nil_in_window (hp : s.decPhase = .afterBreak) (ha : s.agenda = []) :
    step s = leaving (exec .getkey { s with context := .consumer }) := by
  have hf : fetch s = resumeGetkey s := by simp only [fetch, ha, if_pos hp]
  rw [step, hf]
  rfl

theorem step_of_nil (hp : s.decPhase ≠ .afterBreak) (ha : s.agenda = []) : step s = .next s := by
  simp only [step, fetch, ha, if_neg hp]

theorem step_of_resume (hp : s.decPhase ≠ .afterBreak) (ha : s.agenda = .resume :: rest) :
    step s = .next { s with agenda := rest } := by
  simp only [step, fetch, ha, if_neg hp]

/-- Settles O7: it is `step_of_issue`. -/
theorem stepRunsTheDecodedOperation : Obligations.StepRunsTheDecodedOperation :=
  fun _ _ _ _ _ => step_of_issue

/-- Settles O8: one lemma for each turn; the producer's turn is a turn like any other. -/
theorem consumerTurnInTheBreakWindowIsPhaseTwo : Obligations.ConsumerTurnInTheBreakWindowIsPhaseTwo :=
  fun _ hp =>
    ⟨fun _ _ ha => step_of_issue_in_window ha ⟨rfl, hp⟩, fun _ => step_of_resume_in_window hp,
      step_of_nil_in_window hp, fun _ _ _ ha => step_of_issue ha (by simp)⟩

/-- Settles O9: the two turns with nothing to do. -/
theorem nothingIssuedNothingHappens : Obligations.NothingIssuedNothingHappens :=
  fun _ hp => ⟨step_of_nil (by simp [hp]), fun _ => step_of_resume (by simp [hp])⟩

/-! ## Refusals -/

theorem ne_consumer_iff : a ≠ .consumer ↔ a = .producer := by cases a <;> simp

theorem ne_producer_iff : a ≠ .producer ↔ a = .consumer := by cases a <;> simp

/-- Settles O11: an operation is refused exactly when the context is not its issuer's. -/
theorem wrongAgentIsRefused : Obligations.WrongAgentIsRefused := by
  intro s
  simp [exec_eq_refused, issuer, ne_consumer_iff, ne_producer_iff]

/-- Going on with a GETKEY is never refused: the consumer issues it. -/
theorem leaving_getkey_ne_refused {r : Refusal} (hx : s.context = .consumer) :
    leaving (exec .getkey s) ≠ .refused r := fun h =>
  (exec_eq_refused.1 (leaving_eq_refused.1 h)).1 hx

/-- A step is refused only where the head of the agenda is a word, outside the consumer's window. -/
theorem exists_issue_of_step_refused {r : Refusal} (h : step s = .refused r) :
    ∃ a w rest, s.agenda = .issue a w :: rest ∧ ¬ (a = .consumer ∧ s.decPhase = .afterBreak) := by
  cases ha : s.agenda with
  | nil =>
    by_cases hp : s.decPhase = .afterBreak
    · rw [step_of_nil_in_window hp ha] at h
      exact absurd h (leaving_getkey_ne_refused rfl)
    · simp [step_of_nil hp ha] at h
  | cons turn rest =>
    cases turn with
    | resume =>
      by_cases hp : s.decPhase = .afterBreak
      · rw [step_of_resume_in_window hp ha] at h
        exact absurd h (leaving_getkey_ne_refused rfl)
      · simp [step_of_resume hp ha] at h
    | issue a w =>
      refine ⟨a, w, rest, rfl, fun hturn => ?_⟩
      rw [step_of_issue_in_window ha hturn] at h
      exact leaving_getkey_ne_refused rfl h

/-- The refusal of a word: of an illegal one by the decoder's reason, of a legal one from the wrong agent. -/
theorem step_issue_eq_refused {r : Refusal} (ha : s.agenda = .issue a w :: rest)
    (hturn : ¬ (a = .consumer ∧ s.decPhase = .afterBreak)) :
    step s = .refused r ↔
      (decode w = .illegal .reservedOpcode ∧ r = .reservedOpcode) ∨
      (decode w = .illegal .nonzeroMbz ∧ r = .nonzeroMbz) ∨
      (∃ i, decode w = .instr i ∧ a ≠ issuer i ∧ r = .wrongContext) := by
  cases hd : decode w with
  | instr i => simp [step_of_issue ha hturn hd, leaving_eq_refused, exec_eq_refused]
  | illegal e =>
    rw [step_of_issue_illegal ha hturn hd]
    cases e <;> simp [refusalOf, eq_comm]

/-- Settles O10: a refused step has a word at the head of the agenda, and the word gives the reason. -/
theorem stepIsRefusedForThreeReasonsOnly : Obligations.StepIsRefusedForThreeReasonsOnly := by
  intro s r
  constructor
  case mp =>
    intro h
    obtain ⟨a, w, rest, ha, hturn⟩ := exists_issue_of_step_refused h
    exact ⟨a, w, rest, ha, hturn, (step_issue_eq_refused ha hturn).1 h⟩
  case mpr =>
    rintro ⟨a, w, rest, ha, hturn, hreason⟩
    exact (step_issue_eq_refused ha hturn).2 hreason

/-! ## Faults -/

theorem BlockInv.exec_ne_fault (h : BlockInv s) (i : Instr) (f : Fault) : exec i s ≠ .fault f := by
  by_cases hx : s.context = issuer i
  · simp [exec_of_fits hx (h.fits i)]
  · simp [exec_eq_refused.2 ⟨hx, rfl⟩]

/-- A step answers as an operation does in some turn, or gives a next state, or refuses an illegal word. -/
theorem step_outcomes (s : State) :
    (∃ i a rest, step s = leaving (exec i { s with context := a, agenda := rest })) ∨
    (∃ t, step s = .next t) ∨ ∃ r, step s = .refused r := by
  unfold step
  split
  case h_1 i u hf =>
    obtain ⟨a, rest, rfl⟩ := fetch_run hf
    exact .inl ⟨i, a, rest, rfl⟩
  case h_2 => exact .inr (.inr ⟨_, rfl⟩)
  case h_3 => exact .inr (.inl ⟨_, rfl⟩)

theorem Inv.step_ne_fault (h : Inv s) (f : Fault) : step s ≠ .fault f := by
  rcases step_outcomes s with ⟨i, a, rest, hstep⟩ | ⟨t, hstep⟩ | ⟨r, hstep⟩ <;> rw [hstep]
  · exact fun hf => (h.block.turn a rest).exec_ne_fault i f (leaving_eq_fault.1 hf)
  · simp
  · simp

/-- Settles O46: no step faults, and a step that is not refused either completes. -/
theorem noStepFaultsAndLegalStepsComplete : Obligations.NoStepFaultsAndLegalStepsComplete := by
  intro s h
  refine ⟨h.step_ne_fault, fun hlegal => ?completes⟩
  case completes =>
    cases hstep : step s with
    | next t => exact ⟨t, rfl⟩
    | fault f => exact absurd hstep (h.step_ne_fault f)
    | refused r =>
      obtain ⟨a, w, rest, ha, hturn⟩ := exists_issue_of_step_refused hstep
      obtain ⟨i, hd, hagent⟩ := hlegal a w rest ha
      have hreason := (step_issue_eq_refused ha hturn).1 hstep
      simp [hd, hagent] at hreason

/-- Settles O47: where a slot is absent the operation does not fit, and faults there. -/
theorem absentSlotsFault : Obligations.AbsentSlotsFault := by
  intro s
  refine ⟨fun hx he hh => ?read, fun hx hc hroom => ?write, fun i f h => h.exec_ne_fault i f⟩
  case read =>
    have hpop : ¬ s.popFits := not_or.2 ⟨Bool.eq_false_iff.1 he, Nat.not_lt.2 hh⟩
    exact ⟨exec_of_not_fits (i := .pop) hx hpop, exec_of_not_fits (i := .peek) hx hpop,
      exec_of_not_fits (i := .getkey) hx hpop⟩
  case write =>
    have hnext : s.next s.tail = s.tail + 1 := by rw [State.next, hc, Nat.mod_zero]
    have hpush : ¬ s.pushFits := by
      rw [State.pushFits, full_iff, hc, Nat.mod_zero]
      exact not_or.2 ⟨hroom, Nat.not_lt_zero _⟩
    rw [← hnext]
    refine ⟨fun b => exec_of_not_fits (i := .push b) hx hpush, fun he hstop hkeep => ?_⟩
    have ha : s.accepts 1 = true :=
      accepts_iff.2 ⟨he, hstop, rfl, Bool.eq_false_iff.2 fun hsup => hkeep (suppress_iff.1 hsup)⟩
    exact exec_of_not_fits (i := .edge 1) hx fun hf => hpush (hf ha)

/-! ## The widths of the index registers -/

theorem indicesFit_iff : s.indicesFit = true ↔ s.head < 2 ^ indexWidth s.cfg ∧ s.tail < 2 ^ indexWidth s.cfg := by
  simp [State.indicesFit]

theorem SameQueue.indicesFit (h : SameQueue t s) (hs : s.indicesFit = true) : t.indicesFit = true := by
  rw [State.indicesFit, h.cfg, h.head, h.tail]
  exact hs

theorem next_lt_two_pow {n : Nat} (h : n < s.cfg.capacity) (k : Nat) : s.next k < 2 ^ indexWidth s.cfg :=
  Nat.lt_of_lt_of_le (next_lt (by omega) k) (capacity_le_two_pow s.cfg)

theorem indicesFit_appended (hp : s.pushFits) (h : s.indicesFit = true) : (s.appended b).indicesFit = true := by
  unfold State.appended
  split
  case isTrue => exact h
  case isFalse hf => exact indicesFit_iff.2 ⟨(indicesFit_iff.1 h).1, next_lt_two_pow (hp.resolve_left hf) _⟩

theorem indicesFit_dropped (hp : s.popFits) (h : s.indicesFit = true) : s.dropped.indicesFit = true := by
  unfold State.dropped
  split
  case isTrue => exact h
  case isFalse he => exact indicesFit_iff.2 ⟨next_lt_two_pow (hp.resolve_left he) _, (indicesFit_iff.1 h).2⟩

/-- At their reset values the indices fit, whatever the capacity (log 15). -/
theorem indicesFit_of_reset (hhead : s.head = 0) (htail : s.tail = s.cfg.capacity - 1) : s.indicesFit = true := by
  have hpow := Nat.two_pow_pos (indexWidth s.cfg)
  have hcap := capacity_le_two_pow s.cfg
  exact indicesFit_iff.2 ⟨by omega, by omega⟩

theorem indicesFit_queueAfter (hf : fits i s) (h : s.indicesFit = true) : (queueAfter i s).indicesFit = true := by
  cases i with
  | edge d =>
    by_cases ha : s.accepts d = true
    · rw [queueAfter_edge_of_accepts ha]; exact indicesFit_appended (hf ha) h
    · rw [queueAfter_edge_of_not_accepts ha]; exact h
  | push b => exact indicesFit_appended hf h
  | pop => exact indicesFit_dropped hf h
  | peek => exact h
  | isempty => exact h
  | getkey => exact indicesFit_dropped hf h
  | isbusy => exact h
  | init =>
    rw [queueAfter, initialized_eq]
    exact indicesFit_of_reset rfl rfl

/-- An operation that completes, whatever else holds, keeps the indices in their width. -/
theorem indicesFit_exec (h : exec i s = .next t) (hs : s.indicesFit = true) : t.indicesFit = true := by
  obtain ⟨_, hf, rfl⟩ := exec_eq_next.1 h
  exact (sameQueue_executed i s).indicesFit (indicesFit_queueAfter hf hs)

/-- Settles O51: each operation writes a slot number to an index, or its reset value. -/
theorem indexRegistersHoldTheirWidth : Obligations.IndexRegistersHoldTheirWidth := by
  refine ⟨fun c _ => ⟨capacity_le_two_pow c, fun _ => indexWidth_le, indicesFit_of_reset rfl rfl⟩, by decide,
    fun s h => h.block.queue.indicesFit, fun s t hstep hs => ?step,
    fun i s t h hne => ⟨fun hi => ?head, fun hi => ?tail⟩⟩
  case step =>
    rcases step_cases hstep with ⟨i, a, rest, v, hv, rfl⟩ | ⟨rest, rfl⟩
    · exact (indicesFit_exec hv hs : v.indicesFit = true)
    · exact hs
  case head => rw [(exec_eq_next.1 h).2.2, executed_producer_frame hi]
  case tail => rw [(exec_eq_next.1 h).2.2, executed_consumer_frame hi hne]

end Sys2Proof.Machine

/-! PROOFS. What the operations read: the results of runs from states that differ in other fields. -/

namespace Sys2Proof.Machine

variable {s t : State} {i : Instr} {d : BitVec 1} {b c : Byte}

/-! ## The producer's side -/

theorem framed_withStorage (d : BitVec 1) (s : State) (m : Memory) :
    framed d { s with storage := m } = { framed d s with storage := framedStorage d s m } := by
  rw [framed_congr (s := s) (t := { s with storage := m }) d rfl rfl rfl, framed_frame, framed_trace]

theorem framed_enter (d : BitVec 1) (s : State) (a : Agent) : framed d (s.enter a) = (framed d s).enter a := by
  rw [framed_congr (s := s) (t := s.enter a) d rfl rfl rfl, framed_frame, framed_trace, State.enter_storage,
    ← framed_storage]
  rfl

theorem framed_withConsumerState {c : Config} (hcap : c.capacity = s.cfg.capacity)
    (hpolicy : c.busyParityPolicy = s.cfg.busyParityPolicy) (sh cl : Bool) (p : DecPhase) (d : BitVec 1) :
    framed d { s with cfg := c, shiftHeld := sh, capsLockOn := cl, decPhase := p } =
      { framed d s with cfg := c, shiftHeld := sh, capsLockOn := cl, decPhase := p } := by
  rw [framed_congr (s := s) (t := { s with cfg := c, shiftHeld := sh, capsLockOn := cl, decPhase := p }) d hcap hpolicy
    rfl, framed_frame, framed_trace, framed_storage]

/-- A producer operation does not read the storage. -/
theorem executed_producer_withStorage (hi : issuer i = .producer) (m : Memory) :
    ∃ m', executed i { s with storage := m } = { executed i s with storage := m' } := by
  cases i with
  | edge d =>
    rcases Bool.eq_false_or_eq_true s.edgeIrqEn with he | he
    · refine ⟨framedStorage d s m, ?_⟩
      rw [executed_edge_of_enabled he, executed_edge_of_enabled (s := { s with storage := m }) he, framed_withStorage]
      rfl
    · refine ⟨m, ?_⟩
      rw [executed_edge_of_disabled he, executed_edge_of_disabled (s := { s with storage := m }) he]
  | push b =>
    cases hf : s.full with
    | true =>
      refine ⟨m, ?_⟩
      rw [executed_push_of_full hf, executed_push_of_full (s := { s with storage := m }) hf]
      rfl
    | false =>
      refine ⟨Memory.write m (s.next s.tail) b, ?_⟩
      rw [executed_push_of_not_full hf, executed_push_of_not_full (s := { s with storage := m }) hf]
      rfl
  | _ => cases hi

theorem leave_of_consumer (hx : s.context = .consumer) : s.leave = s := by
  rw [State.leave, ← hx]

/-- An operation does not read the context it runs in. -/
theorem executed_enter_leave (i : Instr) (hx : s.context = .consumer) :
    (executed i (s.enter (issuer i))).leave = executed i s := by
  rw [← leave_of_consumer (s := executed i s) (by rw [executed_context, hx])]
  cases hi : issuer i with
  | consumer => rw [State.enter_consumer_of_context s hx]
  | producer =>
    cases i with
    | edge d =>
      cases he : s.edgeIrqEn with
      | true =>
        rw [executed_edge_of_enabled he, executed_edge_of_enabled (s := s.enter .producer) he, framed_enter]
        rfl
      | false =>
        rw [executed_edge_of_disabled he, executed_edge_of_disabled (s := s.enter .producer) he]
        rfl
    | push b =>
      cases hf : s.full with
      | true => rw [executed_push_of_full hf, executed_push_of_full (s := s.enter .producer) hf]; rfl
      | false => rw [executed_push_of_not_full hf, executed_push_of_not_full (s := s.enter .producer) hf]; rfl
    | _ => cases hi

/-! ## The consumer's side -/

/-- Two states that agree in what the consumer's operations read, but for `busy`: the configuration, the queue's
indices and oldest byte, the latch and the decoder's phase (10_state.md section 6). -/
structure SameConsumer (t s : State) : Prop where
  cfg : t.cfg = s.cfg
  head : t.head = s.head
  tail : t.tail = s.tail
  empty : t.empty = s.empty
  shiftHeld : t.shiftHeld = s.shiftHeld
  capsLockOn : t.capsLockOn = s.capsLockOn
  decPhase : t.decPhase = s.decPhase
  oldest : t.oldest = s.oldest

theorem SameConsumer.popped_eq (h : SameConsumer t s) :
    popped t = { t with head := (popped s).head, empty := (popped s).empty } := by
  rw [popped, popped, State.next, State.next, h.head, h.tail, h.cfg]

theorem SameConsumer.dropped_eq (h : SameConsumer t s) :
    t.dropped = { t with head := s.dropped.head, empty := s.dropped.empty } := by
  cases he : s.empty with
  | true => rw [dropped_of_empty he, dropped_of_empty (h.empty.trans he), ← h.head, ← h.empty]
  | false => rw [dropped_of_nonempty he, dropped_of_nonempty (h.empty.trans he), h.popped_eq]

/-! ### The cases of the decode (42_decoder.md R151) -/

theorem decodeMake_of_break (hbreak : c = s.cfg.breakCode) :
    decodeMake c s = { s with decPhase := .afterBreak, result := .nothing } := if_pos hbreak

theorem decodeMake_of_shift (hbreak : c ≠ s.cfg.breakCode) (hshift : isShiftCode s.cfg c = true) :
    decodeMake c s = { s with shiftHeld := true, result := .byte none } := by
  rw [decodeMake, if_neg hbreak, if_pos hshift]
  rfl

theorem decodeMake_of_caps (hbreak : c ≠ s.cfg.breakCode) (hshift : isShiftCode s.cfg c = false)
    (hcaps : c = s.cfg.capsCode) :
    decodeMake c s = { s with capsLockOn := !s.capsLockOn, result := .byte none } := by
  rw [decodeMake, if_neg hbreak, if_neg (Bool.eq_false_iff.1 hshift), if_pos hcaps]
  rfl

theorem decodeMake_of_plain (hbreak : c ≠ s.cfg.breakCode) (hshift : isShiftCode s.cfg c = false)
    (hcaps : c ≠ s.cfg.capsCode) : decodeMake c s = s.returning (.byte (s.lookup c)) := by
  rw [decodeMake, if_neg hbreak, if_neg (Bool.eq_false_iff.1 hshift), if_neg hcaps]

/-- What the decode of a byte reads is the configuration and the latch (42_decoder.md R151). -/
theorem decodeMake_congr (hcfg : t.cfg = s.cfg) (hshift : t.shiftHeld = s.shiftHeld)
    (hcaps : t.capsLockOn = s.capsLockOn) (hphase : t.decPhase = s.decPhase) :
    decodeMake c t =
      { t with
        shiftHeld := (decodeMake c s).shiftHeld, capsLockOn := (decodeMake c s).capsLockOn,
        decPhase := (decodeMake c s).decPhase, result := (decodeMake c s).result } := by
  have hlookup : t.lookup c = s.lookup c := by
    simp only [State.lookup, State.selectsShifted, hcfg, hshift, hcaps]
    rfl
  by_cases hbreak : c = s.cfg.breakCode
  · rw [decodeMake_of_break hbreak, decodeMake_of_break (s := t) (by rw [hcfg, hbreak]), ← hshift, ← hcaps]
  · cases his : isShiftCode s.cfg c with
    | true =>
      rw [decodeMake_of_shift hbreak his, decodeMake_of_shift (s := t) (by rwa [hcfg]) (by rwa [hcfg]), ← hcaps,
        ← hphase]
    | false =>
      by_cases hc : c = s.cfg.capsCode
      · rw [decodeMake_of_caps hbreak his hc,
          decodeMake_of_caps (s := t) (by rwa [hcfg]) (by rwa [hcfg]) (by rwa [hcfg]), ← hshift, ← hcaps, ← hphase]
      · rw [decodeMake_of_plain hbreak his hc,
          decodeMake_of_plain (s := t) (by rwa [hcfg]) (by rwa [hcfg]) (by rwa [hcfg]), hlookup,
          State.returning, State.returning, ← hshift, ← hcaps, ← hphase]

/-! ### The cases of GETKEY (42_decoder.md R151, R152) -/

theorem keyRead_of_empty (hp : s.decPhase = .idle) (he : s.empty = true) :
    s.keyRead = s.returning (.byte none) := by
  simp only [State.keyRead, hp, oldest_of_empty he]

theorem keyRead_of_nonempty (hp : s.decPhase = .idle) (he : s.empty = false) :
    s.keyRead = decodeMake (Memory.read s.storage s.head) (popped s) := by
  simp only [State.keyRead, hp, oldest_of_nonempty he]

theorem keyRead_of_afterBreak (hp : s.decPhase = .afterBreak) : s.keyRead = decodeBreak s.oldest s.dropped := by
  simp only [State.keyRead, hp]

theorem SameConsumer.keyRead_eq (h : SameConsumer t s) :
    t.keyRead =
      { t with
        head := s.keyRead.head, empty := s.keyRead.empty, shiftHeld := s.keyRead.shiftHeld,
        capsLockOn := s.keyRead.capsLockOn, decPhase := s.keyRead.decPhase, result := s.keyRead.result } := by
  cases hp : s.decPhase with
  | idle =>
    cases he : s.empty with
    | true =>
      rw [keyRead_of_empty hp he, keyRead_of_empty (h.decPhase.trans hp) (h.empty.trans he), State.returning,
        State.returning, ← h.head, ← h.empty, ← h.shiftHeld, ← h.capsLockOn, ← h.decPhase]
    | false =>
      have hread : Memory.read t.storage t.head = Memory.read s.storage s.head := by
        have := h.oldest
        rwa [oldest_of_nonempty he, oldest_of_nonempty (h.empty.trans he), Option.some_inj] at this
      rw [keyRead_of_nonempty hp he, keyRead_of_nonempty (h.decPhase.trans hp) (h.empty.trans he), hread,
        decodeMake_congr (s := popped s) (t := popped t) h.cfg h.shiftHeld h.capsLockOn h.decPhase, h.popped_eq,
        decodeMake_frame (s := popped s)]
  | afterBreak =>
    rw [keyRead_of_afterBreak hp, keyRead_of_afterBreak (h.decPhase.trans hp), h.oldest, h.dropped_eq,
      dropped_frame (s := s)]
    simp only [decodeBreak, State.returning, h.shiftHeld, h.capsLockOn, h.cfg]

/-- A consumer operation but INIT reads the consumer's side alone, ISBUSY's result aside. -/
theorem SameConsumer.executed_eq (h : SameConsumer t s) (hi : issuer i = .consumer) (hne : i ≠ .init) :
    executed i t =
      { t with
        head := (executed i s).head, empty := (executed i s).empty, shiftHeld := (executed i s).shiftHeld,
        capsLockOn := (executed i s).capsLockOn, decPhase := (executed i s).decPhase,
        result := (executed i t).result } := by
  have hread (r : Result) : t.returning r =
      { t with
        head := s.head, empty := s.empty, shiftHeld := s.shiftHeld, capsLockOn := s.capsLockOn,
        decPhase := s.decPhase, result := r } := by
    rw [State.returning, ← h.head, ← h.empty, ← h.shiftHeld, ← h.capsLockOn, ← h.decPhase]
  cases i with
  | edge d => cases hi
  | push b => cases hi
  | pop =>
    rw [executed, h.dropped_eq, executed, dropped_frame (s := s)]
    simp only [State.returning, h.shiftHeld, h.capsLockOn, h.decPhase]
  | peek => exact hread _
  | isempty => exact hread _
  | getkey => rw [executed, h.keyRead_eq]; rfl
  | isbusy => exact hread _
  | init => exact absurd rfl hne

/-- With `busy` the same too, its result is the same. -/
theorem SameConsumer.result_eq (h : SameConsumer t s) (hbusy : t.busy = s.busy) (hi : issuer i = .consumer)
    (hne : i ≠ .init) : (executed i t).result = (executed i s).result := by
  cases i with
  | edge d => cases hi
  | push b => cases hi
  | pop => exact congrArg Result.byte h.oldest
  | peek => exact congrArg Result.byte h.oldest
  | isempty => exact congrArg Result.bool h.empty
  | getkey => rw [executed, h.keyRead_eq]; rfl
  | isbusy => exact congrArg Result.bool (by rw [State.busyOrEmpty, hbusy, h.empty]; rfl)
  | init => exact absurd rfl hne

end Sys2Proof.Machine

/-! PROOFS. Runs of issued operations from the invariant. -/

namespace Sys2Proof.Machine

variable {s t u : State} {i : Instr} {ops rest : List Instr} {log : List (Instr × Result)}

/-- Every operation keeps the invariant between steps. -/
theorem Inv.executed (h : Inv s) (i : Instr) : Inv (executed i s) where
  block := h.block.executed i
  context := by rw [executed_context]; exact h.context

/-- From the invariant an issued operation is `executed`. -/
theorem Inv.execIssued_eq (h : Inv s) (i : Instr) : execIssued i s = .next (Machine.executed i s) := by
  have hblock : BlockInv (s.enter (issuer i)) := h.block.turn (issuer i) s.agenda
  rw [execIssued, exec_of_fits rfl (hblock.fits i), leaving, executed_enter_leave i h.context]

theorem runIssued_cons (h : execIssued i s = .next t) (hrest : runIssued rest t = some (log, u)) :
    runIssued (i :: rest) s = some ((i, t.result) :: log, u) := by
  simp only [runIssued, h, hrest, Option.map_some]

/-- The state after a run. -/
def executedAll (ops : List Instr) (s : State) : State := ops.foldl (fun u i => executed i u) s

/-- From the invariant every run completes, with the state `executedAll` and a log of its operations. -/
theorem Inv.runIssued_eq (h : Inv s) (ops : List Instr) :
    ∃ log, runIssued ops s = some (log, executedAll ops s) ∧ log.map Prod.fst = ops := by
  induction ops generalizing s with
  | nil => exact ⟨[], rfl, rfl⟩
  | cons i ops ih =>
    obtain ⟨log, hrun, hlog⟩ := ih (h.executed i)
    exact ⟨_, runIssued_cons (h.execIssued_eq i) hrun, by rw [List.map_cons, hlog]⟩

theorem executedAll_append : executedAll (ops ++ rest) s = executedAll rest (executedAll ops s) :=
  List.foldl_append

end Sys2Proof.Machine

/-! PROOFS. The laws of the byte queue (41_queue.md, "Derived laws"). -/

namespace Sys2Proof.Machine

variable {s t : State} {i : Instr} {b : Byte} {d : BitVec 1} {ops : List Instr} {log : List (Instr × Result)}

/-! ## The unread bytes after each operation -/

theorem full_iff_unread (hq : QueueInv s) : s.full = true ↔ s.unread.length = s.cfg.capacity := by
  rw [unread_length, full_iff_count hq]

theorem not_full_iff_unread (hq : QueueInv s) : s.full = false ↔ s.unread.length < s.cfg.capacity := by
  have hle := count_le_capacity hq
  rw [← Bool.not_eq_true, full_iff_unread hq, unread_length]
  omega

theorem oldest_eq_head? (hq : QueueInv s) : s.oldest = s.unread.head? := by
  rw [unread_head? hq, State.oldest]

theorem empty_eq_isEmpty : s.empty = s.unread.isEmpty := by
  rw [Bool.eq_iff_iff, List.isEmpty_iff, unread_eq_nil_iff]

theorem appended_unread_of_full (hf : s.full = true) : (s.appended b).unread = s.unread := by
  rw [State.appended, if_pos hf]

theorem appended_unread_of_not_full (hq : QueueInv s) (hs : StorageInv s) (hf : s.full = false) :
    (s.appended b).unread = s.unread ++ [b] := by
  rw [State.appended, if_neg (Bool.eq_false_iff.1 hf), pushed_unread hq hs hf]

/-- A byte offered to the queue leaves the unread bytes in front (20_memory.md R63). -/
theorem unread_prefix_appended (hq : QueueInv s) (hs : StorageInv s) : s.unread <+: (s.appended b).unread := by
  cases hf : s.full with
  | true => rw [appended_unread_of_full hf]
  | false => rw [appended_unread_of_not_full hq hs hf]; exact List.prefix_append _ _

theorem dropped_unread (hq : QueueInv s) : s.dropped.unread = s.unread.tail := by
  cases he : s.empty with
  | true => rw [dropped_of_empty he, unread_of_empty he, List.tail_nil]
  | false => rw [dropped_of_nonempty he, popped_unread hq he]

theorem executed_unread (i : Instr) (s : State) : (executed i s).unread = (queueAfter i s).unread :=
  (sameQueue_executed i s).unread_eq

theorem executed_push_unread : (executed (.push b) s).unread = (s.appended b).unread := executed_unread _ s

theorem executed_pop_unread (hq : QueueInv s) : (executed .pop s).unread = s.unread.tail := by
  rw [executed_unread]
  exact dropped_unread hq

theorem executed_push_result : (executed (.push b) s).result = .bool (!s.full) := by
  cases hf : s.full with
  | true => rw [executed_push_of_full hf]; rfl
  | false => rw [executed_push_of_not_full hf]; rfl

theorem executed_pop_result (hq : QueueInv s) : (executed .pop s).result = .byte s.unread.head? :=
  congrArg Result.byte (oldest_eq_head? hq)

/-- Settles O29: each operation's effect on the unread bytes, and its result in their terms. -/
theorem queueRefinesABoundedFifo : Obligations.QueueRefinesABoundedFifo := by
  intro s h
  have hq := h.queue
  refine ⟨unread_length, count_le_capacity hq, fun hx b => ?push, fun hx => ⟨?pop, ?peek, ?isempty⟩⟩
  case push =>
    refine ⟨executed (.push b) s, exec_of_fits hx (h.fits _), fun hroom => ?_, fun hfull => ?_⟩
    · have hf := (not_full_iff_unread hq).2 hroom
      exact ⟨executed_push_unread.trans (appended_unread_of_not_full hq h.storage hf),
        by rw [executed_push_result, hf]; rfl⟩
    · have hf := (full_iff_unread hq).2 hfull
      exact ⟨executed_push_unread.trans (appended_unread_of_full hf), by rw [executed_push_result, hf]; rfl⟩
  case pop => exact ⟨executed .pop s, exec_of_fits hx (h.fits _), executed_pop_unread hq, executed_pop_result hq⟩
  case peek =>
    exact ⟨executed .peek s, exec_of_fits hx (h.fits _), executed_unread .peek s,
      congrArg Result.byte (oldest_eq_head? hq)⟩
  case isempty =>
    exact ⟨executed .isempty s, exec_of_fits hx (h.fits _), executed_unread .isempty s,
      congrArg Result.bool empty_eq_isEmpty⟩

/-! ## The FIFO law -/

/-- The FIFO law for a log from a queue that holds `q` to one that holds `q'`: what was there and what was pushed comes
out first, and a POP answers NONE exactly when nothing of it is left. -/
structure FifoLaw (q : List Byte) (log : List (Instr × Result)) (q' : List Byte) : Prop where
  order : q ++ pushedBytes log = poppedBytes log ++ q'
  none_iff : ∀ l₁ r l₂, log = l₁ ++ (.pop, r) :: l₂ → (r = .byte none ↔ q ++ pushedBytes l₁ = poppedBytes l₁)

theorem fifoLaw_nil (q : List Byte) : FifoLaw q [] q where
  order := List.append_nil q
  none_iff l₁ r l₂ h := by simp at h

theorem fifoLaw_push_true {q q' : List Byte} (h : FifoLaw (q ++ [b]) log q') :
    FifoLaw q ((.push b, .bool true) :: log) q' where
  order := by simpa [pushedBytes, poppedBytes] using h.order
  none_iff l₁ r l₂ heq := by
    rcases l₁ with - | ⟨e, l₁⟩
    · simp at heq
    · obtain ⟨rfl, htail⟩ := List.cons.inj heq
      simpa [pushedBytes, poppedBytes] using h.none_iff l₁ r l₂ htail

theorem fifoLaw_push_false {q q' : List Byte} (h : FifoLaw q log q') :
    FifoLaw q ((.push b, .bool false) :: log) q' where
  order := by simpa [pushedBytes, poppedBytes] using h.order
  none_iff l₁ r l₂ heq := by
    rcases l₁ with - | ⟨e, l₁⟩
    · simp at heq
    · obtain ⟨rfl, htail⟩ := List.cons.inj heq
      simpa [pushedBytes, poppedBytes] using h.none_iff l₁ r l₂ htail

theorem fifoLaw_pop {q q' : List Byte} (h : FifoLaw q.tail log q') :
    FifoLaw q ((.pop, .byte q.head?) :: log) q' where
  order := by
    cases q with
    | nil => simpa [pushedBytes, poppedBytes] using h.order
    | cons x q => simpa [pushedBytes, poppedBytes] using h.order
  none_iff l₁ r l₂ heq := by
    rcases l₁ with - | ⟨e, l₁⟩
    · obtain ⟨hfirst, _⟩ := List.cons.inj heq
      obtain ⟨_, rfl⟩ := Prod.mk.inj hfirst
      simp [pushedBytes, poppedBytes]
    · obtain ⟨rfl, htail⟩ := List.cons.inj heq
      have hrest := h.none_iff l₁ r l₂ htail
      cases q with
      | nil => simpa [pushedBytes, poppedBytes] using hrest
      | cons x q => simpa [pushedBytes, poppedBytes] using hrest

/-- Every run of PUSH and POP from the invariant obeys the FIFO law. -/
theorem exists_run_fifoLaw (h : Inv s) (hops : ∀ i ∈ ops, i = .pop ∨ ∃ b, i = .push b) :
    ∃ log t, runIssued ops s = some (log, t) ∧ log.map Prod.fst = ops ∧ FifoLaw s.unread log t.unread := by
  induction ops generalizing s with
  | nil => exact ⟨[], s, rfl, rfl, fifoLaw_nil _⟩
  | cons i ops ih =>
    obtain ⟨hi, hrest⟩ := List.forall_mem_cons.1 hops
    obtain ⟨log, t, hrun, hlog, hlaw⟩ := ih (h.executed i) hrest
    refine ⟨_, t, runIssued_cons (h.execIssued_eq i) hrun, by rw [List.map_cons, hlog], ?law⟩
    case law =>
      rcases hi with rfl | ⟨b, rfl⟩
      · rw [executed_pop_unread h.block.queue] at hlaw
        rw [executed_pop_result h.block.queue]
        exact fifoLaw_pop hlaw
      · rw [executed_push_unread] at hlaw
        rw [executed_push_result]
        cases hf : s.full with
        | true =>
          rw [appended_unread_of_full hf] at hlaw
          exact fifoLaw_push_false hlaw
        | false =>
          rw [appended_unread_of_not_full h.block.queue h.block.storage hf] at hlaw
          exact fifoLaw_push_true hlaw

/-- Settles O30: the FIFO law of a run from a queue that holds nothing. -/
theorem bytesComeOutInTheOrderTheyWentIn : Obligations.BytesComeOutInTheOrderTheyWentIn := by
  intro ops s h he hops
  obtain ⟨log, t, hrun, hlog, hlaw⟩ := exists_run_fifoLaw h hops
  rw [unread_of_empty he] at hlaw
  exact ⟨log, t, hrun, hlog, hlaw.order, hlaw.none_iff⟩

/-! ## The capacity law -/

/-- Pushes that the queue has room for all return TRUE and join the unread bytes in order. -/
theorem exists_run_pushes (h : Inv s) (bs : List Byte) (hroom : s.unread.length + bs.length ≤ s.cfg.capacity) :
    ∃ log t, runIssued (bs.map .push) s = some (log, t) ∧ (∀ e ∈ log, e.2 = .bool true) ∧
      t.unread = s.unread ++ bs ∧ Inv t ∧ t.cfg = s.cfg := by
  induction bs generalizing s with
  | nil => exact ⟨[], s, rfl, by simp, by simp, h, rfl⟩
  | cons b bs ih =>
    rw [List.length_cons] at hroom
    have hf : s.full = false := (not_full_iff_unread h.block.queue).2 (by omega)
    have hunread : (executed (.push b) s).unread = s.unread ++ [b] :=
      executed_push_unread.trans (appended_unread_of_not_full h.block.queue h.block.storage hf)
    obtain ⟨log, t, hrun, htrue, ht, hinv, hcfg⟩ := ih (h.executed (.push b)) (by
      rw [hunread, executed_cfg, List.length_append, List.length_singleton]
      omega)
    refine ⟨_, t, runIssued_cons (h.execIssued_eq (.push b)) hrun, ?_, ?_, hinv, by rw [hcfg, executed_cfg]⟩
    · rw [List.forall_mem_cons, executed_push_result, hf]
      exact ⟨rfl, htrue⟩
    · rw [ht, hunread, List.append_assoc, List.singleton_append]

/-- Settles O31: N pushes fill an empty queue, the next finds it full, and a POP makes room for one. -/
theorem queueHoldsExactlyNBytes : Obligations.QueueHoldsExactlyNBytes := by
  intro s h
  refine ⟨fun b => ⟨_, h.execIssued_eq (.push b), ?full⟩, fun he bs x y hlen => ?fill⟩
  case full => rw [executed_push_result, ← full_iff_count h.block.queue]; simp
  case fill =>
    have hnil := unread_of_empty he
    obtain ⟨log, t, hrun, htrue, hunread, ht, hcfg⟩ := exists_run_pushes h bs (by rw [hnil, List.length_nil]; omega)
    rw [hnil, List.nil_append] at hunread
    have hfull : t.full = true := (full_iff_unread ht.block.queue).2 (by rw [hunread, hlen, hcfg])
    have hx := ht.execIssued_eq (.push x)
    rw [executed_push_of_full hfull] at hx
    have ht₂ : Inv (t.returning (.bool false)) := executed_push_of_full hfull ▸ ht.executed (.push x)
    have ht₃ := ht₂.executed .pop
    refine ⟨log, t, _, _, _, hrun, htrue, hunread, hx, rfl, ht₂.execIssued_eq .pop, ht₃.execIssued_eq (.push y), ?_⟩
    have hroom : (executed .pop (t.returning (.bool false))).full = false := by
      have hcap := h.block.queue.capacity_pos
      rw [not_full_iff_unread ht₃.block.queue, executed_pop_unread ht₂.block.queue, State.returning_unread, hunread,
        executed_cfg, State.returning_cfg, hcfg, List.length_tail]
      omega
    rw [executed_push_result, hroom]
    rfl

/-! ## The oldest byte -/

theorem queueAfter_producer (hi : issuer i = .producer) :
    (∃ b, queueAfter i s = s.appended b) ∨ queueAfter i s = s := by
  cases i with
  | edge d =>
    by_cases ha : s.accepts d = true
    · exact .inl ⟨_, queueAfter_edge_of_accepts ha⟩
    · exact .inr (queueAfter_edge_of_not_accepts ha)
  | push b => exact .inl ⟨b, rfl⟩
  | _ => cases hi

/-- Settles O32: the producer only appends, so the first unread byte, if there is one, stays. -/
theorem producerNeverChangesTheOldestByte : Obligations.ProducerNeverChangesTheOldestByte := by
  intro i s t h hi he hexec
  obtain ⟨_, _, rfl⟩ := exec_eq_next.1 hexec
  have hprefix : s.unread <+: (executed i s).unread := by
    rw [executed_unread]
    rcases queueAfter_producer hi with ⟨b, hb⟩ | hsame
    · rw [hb]; exact unread_prefix_appended h.queue h.storage
    · rw [hsame]
  have hq := (h.executed i).queue
  have hsome : (executed i s).oldest = some (Memory.read s.storage s.head) := by
    rw [oldest_eq_head? hq]
    obtain ⟨bs, hbs⟩ := hprefix
    rw [← hbs, unread_of_nonempty h.queue he]
    rfl
  have he' : (executed i s).empty = false :=
    Bool.eq_false_iff.2 fun hnil => by simp [oldest_of_empty hnil] at hsome
  rw [oldest_of_nonempty he', Option.some_inj] at hsome
  exact ⟨he', by rw [executed_producer_frame hi], hsome, hprefix⟩

end Sys2Proof.Machine

/-! PROOFS. What is never observed: the slots without an unread byte, and the trace. -/

namespace Sys2Proof.Machine

variable {s t : State} {i : Instr} {d : BitVec 1}

/-! ## Slots without an unread byte -/

/-- Two states that differ only in slots that hold no unread byte (10_state.md R27). -/
structure SameUnread (t s : State) : Prop where
  eq : t = { s with storage := t.storage }
  unread : t.unread = s.unread

theorem SameUnread.sameConsumer (h : SameUnread t s) (ht : QueueInv t) (hs : QueueInv s) : SameConsumer t s where
  cfg := by rw [h.eq]
  head := by rw [h.eq]
  tail := by rw [h.eq]
  empty := by rw [h.eq]
  shiftHeld := by rw [h.eq]
  capsLockOn := by rw [h.eq]
  decPhase := by rw [h.eq]
  oldest := by rw [oldest_eq_head? ht, oldest_eq_head? hs, h.unread]

/-- An operation writes the same to every register of both. -/
theorem SameUnread.executed_eq (h : SameUnread t s) (ht : QueueInv t) (hs : QueueInv s) (i : Instr) :
    executed i t = { executed i s with storage := (executed i t).storage } := by
  cases hi : issuer i with
  | producer =>
    obtain ⟨m, hm⟩ := executed_producer_withStorage (s := s) hi t.storage
    rw [h.eq, hm]
  | consumer =>
    by_cases hne : i = .init
    · subst hne
      rw [h.eq]
      rfl
    · have hside := h.sameConsumer ht hs
      rw [hside.executed_eq hi hne, hside.result_eq (by rw [h.eq]) hi hne, executed_consumer_frame (s := s) hi hne,
        h.eq]

theorem SameUnread.full_eq (h : SameUnread t s) : t.full = s.full := by
  rw [h.eq]
  rfl

/-- A byte offered to both queues is appended to both or to neither. -/
theorem SameUnread.appended_unread_eq (h : SameUnread t s) (ht : BlockInv t) (hs : BlockInv s) (b : Byte) :
    (t.appended b).unread = (s.appended b).unread := by
  cases hf : s.full with
  | true => rw [appended_unread_of_full hf, appended_unread_of_full (h.full_eq.trans hf), h.unread]
  | false =>
    rw [appended_unread_of_not_full hs.queue hs.storage hf,
      appended_unread_of_not_full ht.queue ht.storage (h.full_eq.trans hf), h.unread]

theorem SameUnread.dropped_unread_eq (h : SameUnread t s) (ht : BlockInv t) (hs : BlockInv s) :
    t.dropped.unread = s.dropped.unread := by
  rw [dropped_unread ht.queue, dropped_unread hs.queue, h.unread]

/-- An operation does the same to the unread bytes of both. -/
theorem SameUnread.executed_unread_eq (h : SameUnread t s) (ht : BlockInv t) (hs : BlockInv s) (i : Instr) :
    (executed i t).unread = (executed i s).unread := by
  rw [executed_unread, executed_unread]
  cases i with
  | edge d =>
    have haccepts : t.accepts d = s.accepts d := by rw [h.eq]; rfl
    have hacc : t.accumulator = s.accumulator := by rw [h.eq]
    by_cases ha : s.accepts d = true
    · rw [queueAfter_edge_of_accepts ha, queueAfter_edge_of_accepts (haccepts.trans ha), hacc]
      exact h.appended_unread_eq ht hs _
    · rw [queueAfter_edge_of_not_accepts ha, queueAfter_edge_of_not_accepts (haccepts ▸ ha)]
      exact h.unread
  | push b => exact h.appended_unread_eq ht hs b
  | pop => exact h.dropped_unread_eq ht hs
  | peek => exact h.unread
  | isempty => exact h.unread
  | getkey => exact h.dropped_unread_eq ht hs
  | isbusy => exact h.unread
  | init => exact (unread_of_empty rfl).trans (unread_of_empty rfl).symm

theorem SameUnread.executed (h : SameUnread t s) (ht : BlockInv t) (hs : BlockInv s) (i : Instr) :
    SameUnread (executed i t) (executed i s) where
  eq := h.executed_eq ht.queue hs.queue i
  unread := h.executed_unread_eq ht hs i

/-- What the next step does is the same in a state with another storage, on that storage. -/
def Fetched.withStorage (m : Memory) : Fetched → Fetched
  | .run i u => .run i { u with storage := m }
  | .illegal e => .illegal e
  | .idle u => .idle { u with storage := m }

theorem fetch_withStorage (s : State) (m : Memory) : fetch { s with storage := m } = (fetch s).withStorage m := by
  unfold fetch
  dsimp only
  split
  · split <;> rfl
  · split <;> rfl
  · split
    · rfl
    · unfold fetchIssue
      split <;> rfl

theorem SameUnread.turn (h : SameUnread t s) (a : Agent) (rest : List Turn) :
    SameUnread { t with context := a, agenda := rest } { s with context := a, agenda := rest } where
  eq := by rw [h.eq]
  unread := h.unread

/-- Settles O50: the step of the other state runs the same operation, from a state that differs as before. -/
theorem slotsWithoutAnUnreadByteAreNeverObserved : Obligations.SlotsWithoutAnUnreadByteAreNeverObserved := by
  intro s t s' hs ht heq hunread hstep
  have hsame : SameUnread t s := ⟨heq, hunread⟩
  generalize t.storage = m at heq
  subst heq
  rw [step] at hstep ⊢
  rw [fetch_withStorage]
  cases hf : fetch s with
  | run i u =>
    obtain ⟨a, rest, rfl⟩ := fetch_run hf
    rw [hf] at hstep
    obtain ⟨v, hv, rfl⟩ := leaving_eq_next.1 hstep
    obtain ⟨hx, _, rfl⟩ := exec_eq_next.1 hv
    have hblock := ht.block.turn a rest
    have hafter := (hsame.turn a rest).executed hblock (hs.block.turn a rest) i
    refine ⟨_, leaving_eq_next.2 ⟨_, exec_of_fits hx (hblock.fits i), rfl⟩, ?registers, hafter.unread⟩
    case registers => exact congrArg State.leave hafter.eq
  | illegal e => simp [hf] at hstep
  | idle u =>
    obtain ⟨rest, rfl⟩ := fetch_idle hf
    rw [hf] at hstep
    cases hstep
    exact ⟨_, rfl, rfl, hunread⟩

/-! ## The trace -/

/-- The events an operation records (60_exceptions.md R181). -/
def recorded : Instr → State → List Event
  | .edge d, s => if s.edgeIrqEn then framedEvents d s else []
  | _, _ => []

theorem length_recorded_le : (recorded i s).length ≤ 1 := by
  cases i with
  | edge d =>
    rw [recorded]
    split
    · exact length_framedEvents_le
    · simp
  | _ => simp [recorded]

theorem recorded_of_not_edge (h : isEdge i = false) : recorded i s = [] := by
  cases i with
  | edge d => cases h
  | _ => rfl

/-- An operation reads no event and adds those of `recorded`. -/
theorem executed_withTrace (i : Instr) (s : State) (l : List Event) :
    executed i { s with trace := l } = { executed i s with trace := l ++ recorded i s } := by
  cases i with
  | edge d =>
    rcases Bool.eq_false_or_eq_true s.edgeIrqEn with he | he
    · rw [executed_edge_of_enabled he, executed_edge_of_enabled (s := { s with trace := l }) he, recorded, if_pos he,
        framed_congr (s := s) (t := { s with trace := l }) d rfl rfl rfl, ← framed_storage, framed_frame]
      rfl
    · rw [executed_edge_of_disabled he, executed_edge_of_disabled (s := { s with trace := l }) he, recorded,
        if_neg (Bool.eq_false_iff.1 he), List.append_nil]
  | push b =>
    rw [recorded_of_not_edge rfl, List.append_nil]
    cases hf : s.full with
    | true =>
      rw [executed_push_of_full hf, executed_push_of_full (s := { s with trace := l }) hf]
      rfl
    | false =>
      rw [executed_push_of_not_full hf, executed_push_of_not_full (s := { s with trace := l }) hf]
      rfl
  | init =>
    rw [recorded_of_not_edge rfl, List.append_nil]
    rfl
  | _ =>
    have hside : SameConsumer { s with trace := l } s := ⟨rfl, rfl, rfl, rfl, rfl, rfl, rfl, rfl⟩
    rw [recorded_of_not_edge rfl, List.append_nil, hside.executed_eq rfl (by simp), hside.result_eq rfl rfl (by simp),
      executed_consumer_frame (s := s) rfl (by simp)]

theorem fits_withTrace (i : Instr) (s : State) (l : List Event) : fits i { s with trace := l } ↔ fits i s := by
  cases i <;> rfl

/-- Settles O43: `recorded` for each operation, whatever the trace was. -/
theorem theTraceIsNeverReadAndEdgeRecordsAtMostOneEvent :
    Obligations.TheTraceIsNeverReadAndEdgeRecordsAtMostOneEvent := by
  intro i s t h
  obtain ⟨hx, hf, rfl⟩ := exec_eq_next.1 h
  refine ⟨recorded i s, length_recorded_le, recorded_of_not_edge, fun l => ?_⟩
  exact exec_eq_next.2 ⟨hx, (fits_withTrace i s l).2 hf, (executed_withTrace i s l).symm⟩

end Sys2Proof.Machine

/-! PROOFS. The decoder and the facade (42_decoder.md, 43_facade.md), and the reads of the queue. -/

namespace Sys2Proof.Machine

variable {s t : State} {i : Instr} {c ch : Byte} {rest : List Byte}

/-! ## The reads -/

/-- Settles O26: PEEK answers the oldest byte. -/
theorem peekReturnsTheOldestByteAndChangesNothing : Obligations.PeekReturnsTheOldestByteAndChangesNothing := by
  intro s hx hh
  have hexec : exec .peek s = .next (s.returning (.byte s.oldest)) := exec_of_fits hx (.inr hh)
  refine ⟨by decide, fun he => ?empty, fun he => ?unread⟩
  case empty => rw [hexec, oldest_of_empty he]; rfl
  case unread => rw [hexec, oldest_of_nonempty he]; rfl

/-- Settles O38: `busyOrEmpty` is the disjunction. -/
theorem isbusyReturnsBusyOrEmpty : Obligations.IsbusyReturnsBusyOrEmpty :=
  fun _ hx => ⟨by decide, execIsbusy_eq hx⟩

/-- Settles O28: a read changes the result alone, which no read looks at. -/
theorem readsAreIdempotent : Obligations.ReadsAreIdempotent := by
  intro i s t hi h
  obtain ⟨hx, hf, rfl⟩ := exec_eq_next.1 h
  rcases hi with rfl | rfl | rfl
  · exact ⟨exec_of_fits hx hf, rfl⟩
  · exact ⟨exec_of_fits hx hf, rfl⟩
  · exact ⟨exec_of_fits hx hf, rfl⟩

/-! ## Power-on and INIT -/

/-- Settles O39: INIT is `initialized`, register by register. -/
theorem initResetsTheBlockAndEnablesTheInterrupt : Obligations.InitResetsTheBlockAndEnablesTheInterrupt := by
  intro s hx
  refine ⟨by decide, ?_⟩
  rw [execInit_eq hx, initialized_eq]
  rfl

/-- Settles O40: the fields of `State.powerOn`, and one evaluation of the default configuration. -/
theorem powerOnStateIsTheResetTable : Obligations.PowerOnStateIsTheResetTable :=
  ⟨rfl, fun _ => ⟨rfl, rfl, rfl, rfl, rfl, rfl, rfl, rfl, rfl, rfl, rfl, rfl, rfl, rfl, rfl⟩, by decide, rfl, rfl,
    by decide, by decide⟩

/-- The state before the first INIT: the edge interrupt disabled, an empty queue and no GETKEY in progress. -/
structure PreInit (s : State) : Prop where
  disabled : s.edgeIrqEn = false
  empty : s.empty = true
  idle : s.decPhase = .idle

/-- What an operation but INIT and PUSH leaves as the result before the first INIT (70_reset_and_hazards.md R203); those
two are not issued there. -/
def preInitResult : Instr → Result → Result
  | .edge _, r => r
  | .push _, r => r
  | .pop, _ => .byte none
  | .peek, _ => .byte none
  | .isempty, _ => .bool true
  | .getkey, _ => .byte none
  | .isbusy, _ => .bool true
  | .init, r => r

theorem PreInit.fits (h : PreInit s) (hpush : ∀ b, i ≠ .push b) : fits i s := by
  have hpop : s.popFits := .inl h.empty
  cases i with
  | edge d => exact fun ha => absurd (accepts_iff.1 ha).1 (by simp [h.disabled])
  | push b => exact absurd rfl (hpush b)
  | pop => exact hpop
  | peek => exact hpop
  | isempty => trivial
  | getkey => exact hpop
  | isbusy => trivial
  | init => trivial

/-- Before the first INIT an operation changes the result alone. -/
theorem PreInit.executed_eq (h : PreInit s) (hinit : i ≠ .init) (hpush : ∀ b, i ≠ .push b) :
    executed i s = s.returning (preInitResult i s.result) := by
  cases i with
  | edge d => exact executed_edge_of_disabled h.disabled
  | push b => exact absurd rfl (hpush b)
  | pop => rw [executed, oldest_of_empty h.empty, dropped_of_empty h.empty, preInitResult]
  | peek => rw [executed, oldest_of_empty h.empty, preInitResult]
  | isempty => rw [executed, h.empty, preInitResult]
  | getkey => rw [executed, keyRead_of_empty h.idle h.empty, preInitResult]
  | isbusy => rw [executed, State.busyOrEmpty, h.empty, Bool.or_true, preInitResult]
  | init => exact absurd rfl hinit

theorem PreInit.execIssued_eq (h : PreInit s) (hinit : i ≠ .init) (hpush : ∀ b, i ≠ .push b) :
    execIssued i s = .next { s with context := .consumer, result := preInitResult i s.result } := by
  have henter : PreInit (s.enter (issuer i)) := ⟨h.disabled, h.empty, h.idle⟩
  rw [execIssued, exec_of_fits rfl (henter.fits hpush), henter.executed_eq hinit hpush]
  rfl

/-- A run before the first INIT: the state but for the result stays, and each operation answers as it does there. -/
theorem PreInit.exists_run (h : PreInit s) (hx : s.context = .consumer) {ops : List Instr}
    (hops : ∀ i ∈ ops, i ≠ .init ∧ ∀ b, i ≠ .push b) :
    ∃ log r, runIssued ops s = some (log, { s with result := r }) ∧ log.map Prod.fst = ops ∧
      ∀ e ∈ log, ∃ old, e.2 = preInitResult e.1 old := by
  induction ops generalizing s with
  | nil => exact ⟨[], s.result, rfl, rfl, by simp⟩
  | cons i ops ih =>
    obtain ⟨⟨hinit, hpush⟩, hrest⟩ := List.forall_mem_cons.1 hops
    have hstep := h.execIssued_eq hinit hpush
    rw [← hx] at hstep
    have hnext : PreInit { s with result := preInitResult i s.result } := ⟨h.disabled, h.empty, h.idle⟩
    obtain ⟨log, r, hrun, hlog, hresults⟩ := ih hnext hx hrest
    refine ⟨_, r, runIssued_cons hstep hrun, by rw [List.map_cons, hlog], ?_⟩
    exact List.forall_mem_cons.2 ⟨⟨s.result, rfl⟩, hresults⟩

/-- Settles O41: the states before the first INIT, one operation and then a run from power-on. -/
theorem beforeInitTheQueueIsEmptyAndNoEdgeCounts : Obligations.BeforeInitTheQueueIsEmptyAndNoEdgeCounts := by
  refine ⟨fun s d hen he hp => ?once, fun c ops hops => ?run⟩
  case once =>
    have h : PreInit s := ⟨hen, he, hp⟩
    exact ⟨h.execIssued_eq (by simp) (by simp), h.execIssued_eq (by simp) (by simp),
      h.execIssued_eq (by simp) (by simp), h.execIssued_eq (by simp) (by simp),
      h.execIssued_eq (by simp) (by simp), h.execIssued_eq (by simp) (by simp)⟩
  case run =>
    have h : PreInit (State.powerOn c) := ⟨rfl, rfl, rfl⟩
    obtain ⟨log, r, hrun, hlog, hresults⟩ := h.exists_run rfl hops
    refine ⟨log, _, hrun, hlog, rfl, ?none, ?true⟩
    case none =>
      rintro r (hr | hr | hr) <;> exact (hresults _ hr).elim fun _ h => h
    case true =>
      rintro r (hr | hr) <;> exact (hresults _ hr).elim fun _ h => h

/-! ## The lookup -/

theorem isShiftCode_iff {cfg : Config} : isShiftCode cfg c = true ↔ c = cfg.shiftLCode ∨ c = cfg.shiftRCode := by
  simp [isShiftCode]

theorem lookup_of_ge (h : 128 ≤ c.toNat) : s.lookup c = none := dif_neg (by omega)

/-- The entry of the selected table for a code below 0x80 (42_decoder.md R153). -/
def State.entry (s : State) (c : Byte) (h : c.toNat < 128) : Byte :=
  if s.shiftHeld = s.capsLockOn then s.cfg.unshifted[c.toNat] else s.cfg.shifted[c.toNat]

/-- The entry is the character, NONE for NOMAP (42_decoder.md R153, R155). -/
theorem lookup_of_lt (h : c.toNat < 128) :
    s.lookup c = if s.entry c h = s.cfg.nomap then none else some (s.entry c h) := by
  have hentry : (if s.selectsShifted then Table.read s.cfg.shifted c h else Table.read s.cfg.unshifted c h) =
      s.entry c h := by
    rw [State.selectsShifted, State.entry]
    cases s.shiftHeld <;> cases s.capsLockOn <;> rfl
  rw [State.lookup, dif_pos h, hentry]

theorem lookup_of_nomap (h : c.toNat < 128) (hnomap : s.entry c h = s.cfg.nomap) : s.lookup c = none := by
  rw [lookup_of_lt h, if_pos hnomap]

theorem lookup_of_mapped (h : c.toNat < 128) (hmapped : s.entry c h ≠ s.cfg.nomap) :
    s.lookup c = some (s.entry c h) := by
  rw [lookup_of_lt h, if_neg hmapped]

theorem lookup_eq_some_imp (h : s.lookup c = some ch) : c.toNat < 128 ∧ ch ≠ s.cfg.nomap := by
  by_cases hlt : c.toNat < 128
  · refine ⟨hlt, fun hch => ?_⟩
    by_cases hnomap : s.entry c hlt = s.cfg.nomap
    · simp [lookup_of_nomap hlt hnomap] at h
    · rw [lookup_of_mapped hlt hnomap, hch] at h
      exact hnomap (Option.some_inj.1 h)
  · simp [lookup_of_ge (Nat.not_lt.1 hlt)] at h

/-- Only a byte that is no special code gives a character, and it is the lookup (42_decoder.md R151). -/
theorem decodeMake_of_some (h : (decodeMake c s).result = .byte (some ch)) :
    s.lookup c = some ch ∧ decodeMake c s = s.returning (.byte (some ch)) := by
  by_cases hbreak : c = s.cfg.breakCode
  · rw [decodeMake_of_break hbreak] at h
    cases h
  · cases hshift : isShiftCode s.cfg c with
    | true =>
      rw [decodeMake_of_shift hbreak hshift] at h
      cases h
    | false =>
      by_cases hcaps : c = s.cfg.capsCode
      · rw [decodeMake_of_caps hbreak hshift hcaps] at h
        cases h
      · rw [decodeMake_of_plain hbreak hshift hcaps] at h ⊢
        have hlookup : s.lookup c = some ch := Result.byte.inj h
        exact ⟨hlookup, by rw [hlookup]⟩

/-- A GETKEY step that returns a character is a first step that removed a byte and looked it up. -/
theorem keyRead_of_some (h : s.keyRead.result = .byte (some ch)) :
    s.decPhase = .idle ∧ s.empty = false ∧ s.lookup (Memory.read s.storage s.head) = some ch ∧
      s.keyRead = (popped s).returning (.byte (some ch)) := by
  cases hp : s.decPhase with
  | idle =>
    cases he : s.empty with
    | true =>
      rw [keyRead_of_empty hp he] at h
      cases h
    | false =>
      rw [keyRead_of_nonempty hp he] at h ⊢
      obtain ⟨hlookup, hstate⟩ := decodeMake_of_some h
      exact ⟨rfl, rfl, hlookup, hstate⟩
  | afterBreak =>
    rw [keyRead_of_afterBreak hp] at h
    cases h

/-- Settles O35: a character comes from `lookup`, with the latch as it was. -/
theorem getkeyNeverReturnsThePlaceholder : Obligations.GetkeyNeverReturnsThePlaceholder := by
  intro s t ch h hresult
  obtain ⟨_, _, rfl⟩ := exec_eq_next.1 h
  obtain ⟨hp, he, hlookup, hstate⟩ := keyRead_of_some hresult
  obtain ⟨hlt, hne⟩ := lookup_eq_some_imp hlookup
  refine ⟨hne, he, hp, hlt, ?shift, ?caps⟩
  case shift => rw [executed, hstate]; rfl
  case caps => rw [executed, hstate]; rfl

/-! ## GETKEY, phase by phase -/

/-- The end of phase 2 (42_decoder.md R151, R154). -/
theorem decodeBreak_eq (r : Option Byte) (s : State) :
    decodeBreak r s =
      { s with
        decPhase := .idle, shiftHeld := s.shiftHeld && !(r.any (isShiftCode s.cfg)), result := .byte none } := rfl

/-- Settles O33: the cases of `keyRead`, and in its first phase those of `decodeMake`. -/
theorem getkeyFollowsTheDecodeAlgorithm : Obligations.GetkeyFollowsTheDecodeAlgorithm := by
  intro s hx hh c u
  have hexec : exec .getkey s = .next s.keyRead := exec_of_fits hx (.inr hh)
  refine ⟨fun hp => ⟨fun he => ?empty, fun he => ?_⟩, fun hp => ⟨fun he => ?markerAlone, fun he => ?_⟩⟩
  case empty => rw [hexec, keyRead_of_empty hp he]; rfl
  case markerAlone =>
    rw [hexec, keyRead_of_afterBreak hp, oldest_of_empty he, dropped_of_empty he, decodeBreak_eq]
    simp
  · have hmake : exec .getkey s = .next (decodeMake c u) := by
      rw [hexec, keyRead_of_nonempty hp he]
      rfl
    rw [hmake]
    refine ⟨fun hbreak => ?marker, fun hbreak => ⟨fun hshift => ?shift, fun hshift => ⟨fun hcaps => ?caps,
      fun hcaps => ?plain⟩⟩⟩
    case marker => rw [decodeMake_of_break (s := u) hbreak]
    case shift => rw [decodeMake_of_shift (s := u) hbreak (isShiftCode_iff.2 hshift)]
    case caps => rw [decodeMake_of_caps (s := u) hbreak (Bool.eq_false_iff.2 (mt isShiftCode_iff.1 hshift)) hcaps]
    case plain =>
      rw [decodeMake_of_plain (s := u) hbreak (Bool.eq_false_iff.2 (mt isShiftCode_iff.1 hshift)) hcaps]
      refine ⟨fun hge => ?_, fun hlt => ⟨fun hnomap => ?_, fun hmapped => ?_⟩⟩
      · rw [lookup_of_ge hge]; rfl
      · rw [lookup_of_nomap (s := u) hlt hnomap]; rfl
      · rw [lookup_of_mapped (s := u) hlt hmapped]; rfl
  · have hbreak : exec .getkey s = .next (decodeBreak (some c) u) := by
      rw [hexec, keyRead_of_afterBreak hp, oldest_of_nonempty he, dropped_of_nonempty he]
      rfl
    rw [hbreak, decodeBreak_eq, Option.any_some]
    refine ⟨fun hshift => ?released, fun hshift => ?other⟩
    case released => rw [isShiftCode_iff.2 hshift, Bool.not_true, Bool.and_false]
    case other => rw [Bool.eq_false_iff.2 (mt isShiftCode_iff.1 hshift), Bool.not_false, Bool.and_true]

/-- A decode starts a phase 2 exactly on the break marker (42_decoder.md R151). -/
theorem decodeMake_decPhase (hp : s.decPhase = .idle) :
    (decodeMake c s).decPhase = .afterBreak ↔ c = s.cfg.breakCode := by
  by_cases hbreak : c = s.cfg.breakCode
  · rw [decodeMake_of_break hbreak]
    exact iff_of_true rfl hbreak
  · have hkept : (decodeMake c s).decPhase = s.decPhase := by
      cases hshift : isShiftCode s.cfg c with
      | true => rw [decodeMake_of_shift hbreak hshift]
      | false =>
        by_cases hcaps : c = s.cfg.capsCode
        · rw [decodeMake_of_caps hbreak hshift hcaps]
        · rw [decodeMake_of_plain hbreak hshift hcaps]; rfl
    simp [hkept, hp, hbreak]

theorem keyRead_decPhase (hq : QueueInv s) (hp : s.decPhase = .idle) :
    s.keyRead.decPhase = .afterBreak ↔ s.unread.head? = some s.cfg.breakCode := by
  cases he : s.empty with
  | true => simp [keyRead_of_empty hp he, unread_of_empty he, hp]
  | false =>
    rw [keyRead_of_nonempty hp he, decodeMake_decPhase (s := popped s) hp, ← oldest_eq_head? hq, oldest_of_nonempty he,
      Option.some_inj]
    rfl

/-- Settles O36: either phase drops the oldest byte, and only the marker leaves a second phase. -/
theorem getkeyConsumesAtMostOneBytePerPhase : Obligations.GetkeyConsumesAtMostOneBytePerPhase := by
  intro s h hx
  refine ⟨s.keyRead, exec_of_fits hx (h.fits .getkey), ?unread, fun hp => ?second,
    fun hp => ⟨?marker, fun ch hch => ?char⟩⟩
  case unread => exact sameQueue_keyRead.unread_eq.trans (dropped_unread h.queue)
  case second => rw [keyRead_of_afterBreak hp]; exact ⟨rfl, rfl⟩
  case marker => exact keyRead_decPhase h.queue hp
  case char =>
    obtain ⟨_, he, _, hstate⟩ := keyRead_of_some hch
    rw [hstate]
    exact ⟨hp, fun hnil => by simp [unread_eq_nil_iff.1 hnil] at he⟩

/-! ## Make and break of a shift key -/

theorem executed_getkey_of_idle (hq : QueueInv s) (hp : s.decPhase = .idle) (hu : s.unread = c :: rest) :
    executed .getkey s = decodeMake c (popped s) ∧ (popped s).unread = rest := by
  have he : s.empty = false := by rw [empty_eq_isEmpty, hu]; rfl
  have hfirst : Memory.read s.storage s.head = c := by
    have := oldest_eq_head? hq
    rwa [oldest_of_nonempty he, hu, List.head?_cons, Option.some_inj] at this
  exact ⟨by rw [executed, keyRead_of_nonempty hp he, hfirst], by rw [popped_unread hq he, hu, List.tail_cons]⟩

theorem executed_getkey_of_afterBreak (hq : QueueInv s) (hp : s.decPhase = .afterBreak) (hu : s.unread = c :: rest) :
    executed .getkey s = decodeBreak (some c) (popped s) ∧ (popped s).unread = rest := by
  have he : s.empty = false := by rw [empty_eq_isEmpty, hu]; rfl
  exact ⟨by rw [executed, keyRead_of_afterBreak hp, oldest_eq_head? hq, dropped_of_nonempty he, hu, List.head?_cons],
    by rw [popped_unread hq he, hu, List.tail_cons]⟩

/-- The pinned entries make 0x1C the letter a (00_scope.md section 5). -/
theorem lookup_letter (hcfg : s.cfg.wf = true) (hlower : s.cfg.nomap ≠ 0x61#8) (hupper : s.cfg.nomap ≠ 0x41#8) :
    s.lookup 0x1C#8 = some (if s.shiftHeld = s.capsLockOn then 0x61#8 else 0x41#8) := by
  simp only [Config.wf, Bool.and_eq_true, beq_iff_eq] at hcfg
  obtain ⟨⟨_, hunshifted⟩, hshifted⟩ := hcfg
  have hentry : s.entry 0x1C#8 (by decide) = if s.shiftHeld = s.capsLockOn then 0x61#8 else 0x41#8 := by
    rw [← hunshifted, ← hshifted]
    rfl
  rw [lookup_of_mapped (by decide) (by rw [hentry]; split <;> simp [hlower.symm, hupper.symm]), hentry]

/-- What one issued GETKEY step leaves: the unread bytes, the shift state, the phase and the result; the rest of the
consumer's state is kept. -/
structure KeyStep (s t : State) (rest : List Byte) (sh : Bool) (p : DecPhase) (r : Result) : Prop where
  inv : Inv t
  issued : execIssued .getkey s = .next t
  cfg : t.cfg = s.cfg
  capsLockOn : t.capsLockOn = s.capsLockOn
  unread : t.unread = rest
  shiftHeld : t.shiftHeld = sh
  decPhase : t.decPhase = p
  result : t.result = r

theorem keyStep_of_executed {sh : Bool} {p : DecPhase} {r : Result} (h : Inv s) (ht : executed .getkey s = t)
    (hcaps : t.capsLockOn = s.capsLockOn) (hu : t.unread = rest) (hsh : t.shiftHeld = sh) (hp : t.decPhase = p)
    (hr : t.result = r) : KeyStep s t rest sh p r where
  inv := ht ▸ h.executed .getkey
  issued := ht ▸ h.execIssued_eq .getkey
  cfg := ht ▸ executed_cfg .getkey s
  capsLockOn := hcaps
  unread := hu
  shiftHeld := hsh
  decPhase := hp
  result := hr

theorem keyStep_shift (h : Inv s) (hp : s.decPhase = .idle) (hbreak : c ≠ s.cfg.breakCode)
    (hshift : isShiftCode s.cfg c = true) (hu : s.unread = c :: rest) :
    ∃ t, KeyStep s t rest true .idle (.byte none) := by
  obtain ⟨ht, hrest⟩ := executed_getkey_of_idle h.block.queue hp hu
  rw [decodeMake_of_shift (s := popped s) hbreak hshift] at ht
  exact ⟨_, keyStep_of_executed h ht rfl hrest rfl hp rfl⟩

theorem keyStep_plain (h : Inv s) (hp : s.decPhase = .idle)
    (hplain : c ∉ [s.cfg.breakCode, s.cfg.shiftLCode, s.cfg.shiftRCode, s.cfg.capsCode]) (hu : s.unread = c :: rest) :
    ∃ t, KeyStep s t rest s.shiftHeld .idle (.byte (s.lookup c)) := by
  obtain ⟨ht, hrest⟩ := executed_getkey_of_idle h.block.queue hp hu
  rw [decodeMake_of_not_special (s := popped s) hplain, lookup_popped] at ht
  exact ⟨_, keyStep_of_executed h ht rfl hrest rfl hp rfl⟩

theorem keyStep_marker (h : Inv s) (hp : s.decPhase = .idle) (hu : s.unread = s.cfg.breakCode :: rest) :
    ∃ t, KeyStep s t rest s.shiftHeld .afterBreak .nothing := by
  obtain ⟨ht, hrest⟩ := executed_getkey_of_idle h.block.queue hp hu
  rw [decodeMake_of_break (s := popped s) (c := s.cfg.breakCode) rfl] at ht
  exact ⟨_, keyStep_of_executed h ht rfl hrest rfl rfl rfl⟩

theorem keyStep_release (h : Inv s) (hp : s.decPhase = .afterBreak) (hshift : isShiftCode s.cfg c = true)
    (hu : s.unread = c :: rest) : ∃ t, KeyStep s t rest false .idle (.byte none) := by
  obtain ⟨ht, hrest⟩ := executed_getkey_of_afterBreak h.block.queue hp hu
  have hcleared : (s.shiftHeld && !((some c).any (isShiftCode s.cfg))) = false := by simp [hshift]
  exact ⟨_, keyStep_of_executed h ht rfl hrest hcleared rfl rfl⟩

/-- Settles O37: five steps, each a `KeyStep`; the two letters are looked up with `shift_held` set and cleared. -/
theorem shiftAndCapsSelectTheLetterCase : Obligations.ShiftAndCapsSelectTheLetterCase := by
  intro s h hp hshift hLB hB hL hR hC hlower hupper hu
  have hwf := h.block.cfg
  have hplain : 0x1C#8 ∉ [s.cfg.breakCode, s.cfg.shiftLCode, s.cfg.shiftRCode, s.cfg.capsCode] := by
    simp [hB, hL, hR, hC]
  have hshiftL : isShiftCode s.cfg s.cfg.shiftLCode = true := isShiftCode_iff.2 (.inl rfl)
  obtain ⟨s₁, k₁⟩ := keyStep_shift h hp hLB hshiftL hu
  obtain ⟨s₂, k₂⟩ := keyStep_plain k₁.inv k₁.decPhase (by rwa [k₁.cfg]) k₁.unread
  have c₂ : s₂.cfg = s.cfg := k₂.cfg.trans k₁.cfg
  obtain ⟨s₃, k₃⟩ := keyStep_marker k₂.inv k₂.decPhase (by rw [c₂]; exact k₂.unread)
  have c₃ : s₃.cfg = s.cfg := k₃.cfg.trans c₂
  obtain ⟨s₄, k₄⟩ := keyStep_release k₃.inv k₃.decPhase (by rwa [c₃]) k₃.unread
  have c₄ : s₄.cfg = s.cfg := k₄.cfg.trans c₃
  obtain ⟨s₅, k₅⟩ := keyStep_plain k₄.inv k₄.decPhase (by rwa [c₄]) k₄.unread
  have caps₄ : s₄.capsLockOn = s.capsLockOn := by
    rw [k₄.capsLockOn, k₃.capsLockOn, k₂.capsLockOn, k₁.capsLockOn]
  refine ⟨_, s₅, runIssued_cons k₁.issued (runIssued_cons k₂.issued (runIssued_cons k₃.issued
    (runIssued_cons k₄.issued (runIssued_cons k₅.issued rfl)))), ?results, k₅.unread, ?shift, ?caps⟩
  case shift => rw [k₅.shiftHeld, k₄.shiftHeld]
  case caps => rw [k₅.capsLockOn, caps₄]
  case results =>
    have hfirst : s₂.result = .byte (some (if true = s.capsLockOn then 0x61#8 else 0x41#8)) := by
      rw [k₂.result, lookup_letter k₁.inv.block.cfg (by rwa [k₁.cfg]) (by rwa [k₁.cfg]), k₁.shiftHeld, k₁.capsLockOn]
    have hsecond : s₅.result = .byte (some (if false = s.capsLockOn then 0x61#8 else 0x41#8)) := by
      rw [k₅.result, lookup_letter k₄.inv.block.cfg (by rwa [c₄]) (by rwa [c₄]), k₄.shiftHeld, caps₄]
    simp only [List.map_cons, List.map_nil, k₁.result, hfirst, k₃.result, k₄.result, hsecond]
    cases s.capsLockOn <;> rfl

end Sys2Proof.Machine

/-! PROOFS. The framer, state by state (40_framer.md section 2). -/

namespace Sys2Proof.Machine

variable {s t : State} {i : Instr} {d : BitVec 1} {b : Byte}

/-- Settles O16: it is the model's law of an EDGE that is not serviced. -/
theorem edgeWhileDisabledChangesNothing : Obligations.EdgeWhileDisabledChangesNothing :=
  fun _ _ => execEdge_disabled

/-- A serviced EDGE whose framer step is known. -/
theorem execEdge_of_framed (hx : s.context = .producer) (he : s.edgeIrqEn = true) (hf : fits (.edge d) s)
    (h : framed d s = t) : exec (.edge d) s = .next (t.returning .nothing) := by
  rw [exec_of_fits hx hf, executed_edge_of_enabled he, h]

/-- Outside AWAIT_STOP an EDGE does not reach the queue, whatever the capacity. -/
theorem fits_edge_of_state (h : s.fsmState ≠ .awaitStop) : fits (.edge d) s :=
  fun ha => absurd (accepts_iff.1 ha).2.1 h

/-- Settles O12: the two rows of AWAIT_START. -/
theorem edgeInAwaitStartDetectsTheStartBit : Obligations.EdgeInAwaitStartDetectsTheStartBit := by
  intro s hx he hfsm
  have hf (d : BitVec 1) : fits (.edge d) s := fits_edge_of_state (by simp [hfsm])
  exact ⟨execEdge_of_framed hx he (hf 0) (framed_start hfsm), execEdge_of_framed hx he (hf 1) (framed_noise hfsm),
    by decide, by decide⟩

/-- Odd parity, in numbers (40_framer.md R103). -/
theorem parityHolds_iff : s.parityHolds d = true ↔ d.toNat ≠ s.parityOnesCount.toNat % 2 := by
  have hlow : (s.parityOnesCount.extractLsb' 0 1).toNat = s.parityOnesCount.toNat % 2 := by
    simp [BitVec.extractLsb'_toNat]
  rw [State.parityHolds, bne_iff_ne, Ne, ← BitVec.toNat_inj, hlow]

theorem parityHolds_eq_false_iff : s.parityHolds d = false ↔ d.toNat = s.parityOnesCount.toNat % 2 := by
  rw [← Bool.not_eq_true, parityHolds_iff, not_not]

/-- Settles O14: the two rows of AWAIT_PARITY, the second under either policy. -/
theorem edgeInAwaitParityValidatesOddParity : Obligations.EdgeInAwaitParityValidatesOddParity := by
  intro s d hx he hfsm
  have hf : fits (.edge d) s := fits_edge_of_state (by simp [hfsm])
  refine ⟨fun hodd => ?holds, fun heven hpolicy => ?clear, fun heven hpolicy => ?latch⟩
  case holds => exact execEdge_of_framed hx he hf (framed_parity hfsm (parityHolds_iff.2 hodd))
  case clear =>
    rw [execEdge_of_framed hx he hf (framed_parityFail hfsm (parityHolds_eq_false_iff.2 heven)),
      State.busyAfterParityFail, hpolicy]
    rfl
  case latch =>
    rw [execEdge_of_framed hx he hf (framed_parityFail hfsm (parityHolds_eq_false_iff.2 heven)),
      State.busyAfterParityFail, hpolicy]
    rfl

/-- Settles O15: the four rows of AWAIT_STOP. -/
theorem edgeInAwaitStopAcceptsOrDropsTheByte : Obligations.EdgeInAwaitStopAcceptsOrDropsTheByte := by
  intro s hx he hfsm hc hwf
  have hf (d : BitVec 1) : fits (.edge d) s := fun _ => State.pushFits_of_capacity hc
  refine ⟨?stopFail, fun hsup => ?suppressed, fun hkeep => ?kept⟩
  case stopFail => exact execEdge_of_framed hx he (hf 0) (framed_stopFail hfsm)
  case suppressed => exact execEdge_of_framed hx he (hf 1) (framed_suppressed hfsm (suppress_iff.2 hsup))
  case kept =>
    have hsup : s.suppress s.accumulator = false := Bool.eq_false_iff.2 (mt suppress_iff.1 hkeep)
    refine ⟨fun hfull => ?queueFull, fun hroom => ?accepted⟩
    case queueFull => exact execEdge_of_framed hx he (hf 1) (framed_queueFull hfsm hsup (full_iff.2 hfull))
    case accepted =>
      exact ⟨_, execEdge_of_framed hx he (hf 1)
          (framed_accepted hfsm hsup (Bool.eq_false_iff.2 (mt full_iff.1 hroom))),
        Memory.read_write_same hwf, fun _ hne => Memory.read_write_other hne, rfl⟩

/-- A framer step moves the state along its table, or not at all (40_framer.md section 3). -/
theorem framed_moves (hne : (framed d s).fsmState ≠ s.fsmState) :
    (s.fsmState = .awaitStart ∧ d = 0#1 ∧ (framed d s).fsmState = .receivingBits) ∨
    (s.fsmState = .receivingBits ∧ s.bitIndex = 7#3 ∧ (framed d s).fsmState = .awaitParity) ∨
    (s.fsmState = .awaitParity ∧ d.toNat ≠ s.parityOnesCount.toNat % 2 ∧ (framed d s).fsmState = .awaitStop) ∨
    (s.fsmState = .awaitParity ∧ d.toNat = s.parityOnesCount.toNat % 2 ∧ (framed d s).fsmState = .awaitStart) ∨
    (s.fsmState = .awaitStop ∧ (framed d s).fsmState = .awaitStart) := by
  have hstop (hfsm : s.fsmState = .awaitStop) : (framed d s).fsmState = .awaitStart := by rw [framed_stop hfsm]; rfl
  revert hne hstop
  induction d using framed_rows s with
  | start hfsm => exact fun _ _ => .inl ⟨hfsm, rfl, by rw [framed_start hfsm]⟩
  | noise hfsm => exact fun hne _ => absurd (by rw [framed_noise hfsm]; rfl) hne
  | dataBit d hfsm =>
    rw [framed_dataBit hfsm]
    intro hne _
    by_cases hlast : s.bitIndex = 7#3
    · exact .inr (.inl ⟨hfsm, hlast, (edgeReceivingBits_of_last d hlast).2⟩)
    · exact absurd ((edgeReceivingBits_of_not_last d hlast).2.trans hfsm.symm) hne
  | parity d hfsm hp =>
    exact fun _ _ => .inr (.inr (.inl ⟨hfsm, parityHolds_iff.1 hp, by rw [framed_parity hfsm hp]⟩))
  | parityFail d hfsm hp =>
    exact fun _ _ => .inr (.inr (.inr (.inl
      ⟨hfsm, parityHolds_eq_false_iff.1 hp, by rw [framed_parityFail hfsm hp]; rfl⟩)))
  | stopFail hfsm => exact fun _ hstop => .inr (.inr (.inr (.inr ⟨hfsm, hstop hfsm⟩)))
  | suppressed hfsm _ => exact fun _ hstop => .inr (.inr (.inr (.inr ⟨hfsm, hstop hfsm⟩)))
  | queueFull hfsm _ _ => exact fun _ hstop => .inr (.inr (.inr (.inr ⟨hfsm, hstop hfsm⟩)))
  | accepted hfsm _ _ => exact fun _ hstop => .inr (.inr (.inr (.inr ⟨hfsm, hstop hfsm⟩)))

/-- Only EDGE and INIT write the framer's state and `busy` (10_state.md section 6). -/
theorem executed_framer_kept (hedge : isEdge i = false) (hinit : i ≠ .init) :
    (executed i s).fsmState = s.fsmState ∧ (executed i s).busy = s.busy := by
  cases hi : issuer i with
  | consumer => rw [executed_consumer_frame hi hinit]; exact ⟨rfl, rfl⟩
  | producer =>
    cases i with
    | edge d => cases hedge
    | push b => rw [executed_push_frame]; exact ⟨rfl, rfl⟩
    | _ => cases hi

/-- Settles O17: INIT goes to AWAIT_START, an EDGE moves along `framed_moves`, and nothing else writes the state. -/
theorem framerStateMovesOnlyAlongItsTable : Obligations.FramerStateMovesOnlyAlongItsTable := by
  intro i s t h hne
  obtain ⟨_, _, rfl⟩ := exec_eq_next.1 h
  by_cases hinit : i = .init
  · subst hinit
    exact .inl ⟨rfl, rfl⟩
  · cases hedge : isEdge i with
    | false => exact absurd (executed_framer_kept hedge hinit).1 hne
    | true =>
      cases i with
      | edge d =>
        rcases Bool.eq_false_or_eq_true s.edgeIrqEn with he | he
        · rw [executed_edge_of_enabled he] at hne ⊢
          exact .inr ⟨d, rfl, he, framed_moves hne⟩
        · rw [executed_edge_of_disabled he] at hne
          exact absurd rfl hne
      | _ => cases hedge

/-- Under LATCH a framer step clears `busy` only in AWAIT_STOP (40_framer.md R103, R104). -/
theorem framed_busy_of_latch (hpolicy : s.cfg.busyParityPolicy = .latch) (hbusy : s.busy = true)
    (hstop : s.fsmState ≠ .awaitStop) : (framed d s).busy = true := by
  induction d using framed_rows s with
  | start hfsm => rw [framed_start hfsm]
  | noise hfsm => rw [framed_noise hfsm]; exact hbusy
  | dataBit d hfsm => rw [framed_dataBit hfsm]; exact hbusy
  | parity d hfsm hp => rw [framed_parity hfsm hp]; exact hbusy
  | parityFail d hfsm hp =>
    rw [framed_parityFail hfsm hp, State.busyAfterParityFail, hpolicy]
    exact hbusy
  | stopFail hfsm => exact absurd hfsm hstop
  | suppressed hfsm _ => exact absurd hfsm hstop
  | queueFull hfsm _ _ => exact absurd hfsm hstop
  | accepted hfsm _ _ => exact absurd hfsm hstop

/-- Settles O22: what clears `busy` is INIT or an EDGE, and the EDGE is in AWAIT_STOP. -/
theorem latchedBusyLastsUntilAStopBitOrInit : Obligations.LatchedBusyLastsUntilAStopBitOrInit := by
  intro s hpolicy hbusy
  refine ⟨fun i t h hclear => ?clears, fun hx => ?answers⟩
  case answers =>
    have hanswer : s.busyOrEmpty = true := by rw [State.busyOrEmpty, hbusy, Bool.true_or]
    rw [execIsbusy_eq hx, hanswer]
    rfl
  case clears =>
    obtain ⟨_, _, rfl⟩ := exec_eq_next.1 h
    by_cases hinit : i = .init
    · exact .inl hinit
    · cases hedge : isEdge i with
      | false => simp [(executed_framer_kept hedge hinit).2, hbusy] at hclear
      | true =>
        cases i with
        | edge d =>
          refine .inr ⟨by_contra fun hstop => ?_, d, rfl⟩
          rcases Bool.eq_false_or_eq_true s.edgeIrqEn with he | he
          · rw [executed_edge_of_enabled he, State.returning_busy, framed_busy_of_latch hpolicy hbusy hstop] at hclear
            cases hclear
          · rw [executed_edge_of_disabled he, hbusy] at hclear
            cases hclear
        | _ => cases hedge

/-- Settles O23: `framed_congr` with another configuration, latch and phase. -/
theorem edgeIgnoresTheConsumersState : Obligations.EdgeIgnoresTheConsumersState := by
  intro s t d c sh cl p hcap hpolicy h
  obtain ⟨hx, hf, rfl⟩ := exec_eq_next.1 h
  rw [executed_producer_frame (i := .edge d) rfl]
  refine ⟨rfl, rfl, rfl, rfl, exec_eq_next.2 ⟨hx, fun ha => ?fits, ?same⟩⟩
  case fits =>
    have hpush : s.pushFits := hf ha
    simpa only [State.pushFits, State.full, State.next, hcap] using hpush
  case same =>
    rw [← executed_producer_frame (i := .edge d) rfl]
    rcases Bool.eq_false_or_eq_true s.edgeIrqEn with he | he
    · rw [executed_edge_of_enabled he,
        executed_edge_of_enabled (s := { s with cfg := c, shiftHeld := sh, capsLockOn := cl, decPhase := p }) he,
        framed_withConsumerState hcap hpolicy]
      rfl
    · rw [executed_edge_of_disabled he,
        executed_edge_of_disabled (s := { s with cfg := c, shiftHeld := sh, capsLockOn := cl, decPhase := p }) he]

end Sys2Proof.Machine

/-! PROOFS. The frame law (40_framer.md section 3). -/

namespace Sys2Proof.Machine

variable {s t u : State} {i : Instr} {d : BitVec 1} {b : Byte} {n : Nat} {ops : List Instr} {e : Event}

/-! ## The data bits of a frame -/

/-- The lowest `n` bits of a byte. -/
def lowBits (b : Byte) (n : Nat) : Byte := (b.setWidth n).setWidth 8

theorem getLsbD_lowBits {k : Nat} (hk : k < 8) : (lowBits b n).getLsbD k = (decide (k < n) && b.getLsbD k) := by
  simp [lowBits, hk]

theorem lowBits_zero : lowBits b 0 = 0#8 :=
  BitVec.eq_of_getLsbD_eq fun k hk => by simp [getLsbD_lowBits hk]

theorem lowBits_eight : lowBits b 8 = b := by simp [lowBits]

/-- One more data bit, least significant first (30_encoding.md R78). -/
theorem setBit_lowBits (hn : n < 8) :
    setBit (lowBits b n) (BitVec.ofNat 3 n) (b.extractLsb' n 1) = lowBits b (n + 1) := by
  have hindex : (BitVec.ofNat 3 n).toNat = n := by rw [BitVec.toNat_ofNat, Nat.mod_eq_of_lt hn]
  have hbit : decide (b.extractLsb' n 1 = 1#1) = b.getLsbD n := by
    rw [extractLsb'_one_eq_ofBool]
    cases b.getLsbD n <;> rfl
  refine BitVec.eq_of_getLsbD_eq fun k hk => ?_
  rw [getLsbD_setBit _ _ _ hk, hindex, hbit, getLsbD_lowBits hk, getLsbD_lowBits hk]
  by_cases heq : k = n
  · simp [heq]
  · have hlt : k < n + 1 ↔ k < n := by omega
    simp [heq, hlt]

/-- One more data bit in the count (40_framer.md R102). -/
theorem ofNat_onesBelow_succ :
    BitVec.ofNat 4 (onesBelow b (n + 1)) =
      if b.extractLsb' n 1 = 1#1 then BitVec.ofNat 4 (onesBelow b n) + 1 else BitVec.ofNat 4 (onesBelow b n) := by
  rw [onesBelow_succ, extractLsb'_one_eq_ofBool]
  cases b.getLsbD n with
  | true => exact BitVec.ofNat_add _ _
  | false => rfl

/-! ## The state in a frame -/

/-- The state `s` with a frame of `b` under way, `n` data bits received (40_framer.md R101, R102). -/
def dataReceived (b : Byte) (n : Nat) (s : State) : State :=
  { s with
    fsmState := if n < 8 then .receivingBits else .awaitParity
    bitIndex := BitVec.ofNat 3 n
    accumulator := lowBits b n
    parityOnesCount := BitVec.ofNat 4 (onesBelow b n)
    busy := true }

/-- The state `s` with `n` edges of a frame of `b` serviced, the stop bit to come at the latest. -/
def inFrame (b : Byte) : Nat → State → State
  | 0, s => s
  | n + 1, s => if n ≤ 8 then dataReceived b n s else { dataReceived b 8 s with fsmState := .awaitStop }

theorem framed_start_eq (hfsm : s.fsmState = .awaitStart) : framed 0#1 s = dataReceived b 0 s := by
  rw [framed_start hfsm]
  simp [dataReceived, lowBits_zero, onesBelow_zero]

theorem framed_dataReceived (hn : n < 8) :
    framed (b.extractLsb' n 1) (dataReceived b n s) = dataReceived b (n + 1) s := by
  have hrow (t : State) (d : BitVec 1) : edgeReceivingBits d t =
      { t with
        accumulator := (edgeReceivingBits d t).accumulator, parityOnesCount := (edgeReceivingBits d t).parityOnesCount,
        bitIndex := (edgeReceivingBits d t).bitIndex, fsmState := (edgeReceivingBits d t).fsmState } := rfl
  have hacc : (edgeReceivingBits (b.extractLsb' n 1) (dataReceived b n s)).accumulator = lowBits b (n + 1) :=
    setBit_lowBits hn
  have hcount : (edgeReceivingBits (b.extractLsb' n 1) (dataReceived b n s)).parityOnesCount =
      BitVec.ofNat 4 (onesBelow b (n + 1)) := ofNat_onesBelow_succ.symm
  have hindex : (edgeReceivingBits (b.extractLsb' n 1) (dataReceived b n s)).bitIndex = BitVec.ofNat 3 (n + 1) := by
    interval_cases n <;> rfl
  have hstate : (edgeReceivingBits (b.extractLsb' n 1) (dataReceived b n s)).fsmState =
      if n + 1 < 8 then .receivingBits else .awaitParity := by
    interval_cases n <;> rfl
  rw [framed_dataBit (if_pos hn), hrow, hacc, hcount, hindex, hstate]
  rfl

/-- The parity bit is right when it makes the number of 1 bits odd (30_encoding.md R78). -/
theorem parityHolds_dataReceived :
    (dataReceived b 8 s).parityHolds d = true ↔ (popcount b + d.toNat) % 2 = 1 := by
  have hle := onesBelow_le b 8
  have hcount : (dataReceived b 8 s).parityOnesCount.toNat = popcount b := by
    show (BitVec.ofNat 4 (onesBelow b 8)).toNat = onesBelow b 8
    rw [BitVec.toNat_ofNat]
    omega
  have hd := d.isLt
  rw [parityHolds_iff, hcount]
  omega

theorem framed_parity_right (hfsm : (dataReceived b 8 s).fsmState = .awaitParity) :
    framed (oddParityBit b) (dataReceived b 8 s) = { dataReceived b 8 s with fsmState := .awaitStop } :=
  framed_parity hfsm (parityHolds_dataReceived.2 (popcount_add_oddParityBit b))

/-- The bit of the `n`th edge of a well-formed frame (30_encoding.md R78). -/
def frameBit (b : Byte) (n : Nat) : BitVec 1 :=
  if n = 0 then 0#1 else if n ≤ 8 then b.extractLsb' (n - 1) 1 else if n = 9 then oddParityBit b else 1#1

/-- The framer follows the frame up to the stop bit. -/
theorem framed_inFrame (hfsm : s.fsmState = .awaitStart) (hn : n < 10) :
    framed (frameBit b n) (inFrame b n s) = inFrame b (n + 1) s := by
  rcases n with - | n
  · exact framed_start_eq hfsm
  · by_cases hdata : n < 8
    · have hbit : frameBit b (n + 1) = b.extractLsb' n 1 := by simp [frameBit]; omega
      rw [hbit, inFrame, if_pos (by omega), framed_dataReceived hdata, inFrame, if_pos (by omega)]
    · obtain rfl : n = 8 := by omega
      exact framed_parity_right rfl

theorem inFrame_enabled : (inFrame b n s).edgeIrqEn = s.edgeIrqEn := by
  unfold inFrame
  split
  · rfl
  · split <;> rfl

theorem inFrame_returning (r : Result) : inFrame b n (s.returning r) = (inFrame b n s).returning r := by
  unfold inFrame
  split
  · rfl
  · split <;> rfl

/-- A frame under way does not show in what the consumer's operations write. -/
theorem inFrame_consumer (hd : Nat) (em sh cl : Bool) (ph : DecPhase) (r : Result) :
    inFrame b n { s with head := hd, empty := em, shiftHeld := sh, capsLockOn := cl, decPhase := ph, result := r } =
      { inFrame b n s with
        head := hd, empty := em, shiftHeld := sh, capsLockOn := cl, decPhase := ph, result := r } := by
  unfold inFrame
  split
  · rfl
  · split <;> rfl

theorem sameConsumer_inFrame : SameConsumer (inFrame b n s) s := by
  unfold inFrame
  split
  · exact ⟨rfl, rfl, rfl, rfl, rfl, rfl, rfl, rfl⟩
  · split <;> exact ⟨rfl, rfl, rfl, rfl, rfl, rfl, rfl, rfl⟩

/-! ## The edges one by one -/

/-- An edge of the frame, up to the stop bit, takes the state one edge on. -/
theorem executed_frameBit (hen : s.edgeIrqEn = true) (hfsm : s.fsmState = .awaitStart) (hn : n < 10) :
    executed (.edge (frameBit b n)) (inFrame b n s) = inFrame b (n + 1) (s.returning .nothing) := by
  rw [executed_edge_of_enabled (inFrame_enabled.trans hen), framed_inFrame hfsm hn, inFrame_returning]

/-- The first `n` edges of a well-formed frame. -/
def firstEdges (b : Byte) (n : Nat) : List Instr := (List.range n).map fun k => .edge (frameBit b k)

theorem frameWith_eq (b : Byte) (p stop : BitVec 1) :
    frameWith b p stop = firstEdges b 9 ++ [.edge p, .edge stop] := rfl

theorem executedAll_firstEdges (hen : s.edgeIrqEn = true) (hfsm : s.fsmState = .awaitStart) (hn : n < 10) :
    executedAll (firstEdges b (n + 1)) s = inFrame b (n + 1) (s.returning .nothing) := by
  induction n with
  | zero => exact executed_frameBit (n := 0) hen hfsm (by omega)
  | succ n ih =>
    rw [firstEdges, List.range_succ, List.map_append, executedAll_append]
    show executed (.edge (frameBit b (n + 1))) (executedAll (firstEdges b (n + 1)) s) = _
    rw [ih (by omega)]
    exact executed_frameBit (s := s.returning .nothing) hen hfsm hn

/-- The state before the parity bit, and the two last edges from it. -/
theorem executedAll_frameWith {p stop : BitVec 1} (hen : s.edgeIrqEn = true) (hfsm : s.fsmState = .awaitStart) :
    executedAll (frameWith b p stop) s =
      executed (.edge stop) (executed (.edge p) (dataReceived b 8 (s.returning .nothing))) := by
  rw [frameWith_eq, executedAll_append, executedAll_firstEdges hen hfsm (by omega)]
  rfl

theorem frame_eq (b : Byte) : frame b = firstEdges b 11 := rfl

theorem drop_frame (hn : n < 11) : (frame b).drop n = .edge (frameBit b n) :: (frame b).drop (n + 1) := by
  have hlen : n < (firstEdges b 11).length := by simpa [firstEdges] using hn
  rw [frame_eq, List.drop_eq_getElem_cons hlen]
  simp [firstEdges]

/-- The right parity bit goes on to AWAIT_STOP (40_framer.md R103). -/
theorem executed_parityBit (hen : s.edgeIrqEn = true) (hfsm : s.fsmState = .awaitStart) :
    executed (.edge (oddParityBit b)) (dataReceived b 8 (s.returning .nothing)) = inFrame b 10 (s.returning .nothing) :=
  executed_frameBit (n := 9) (s := s.returning .nothing) hen hfsm (by omega)

theorem executedAll_frame (hen : s.edgeIrqEn = true) (hfsm : s.fsmState = .awaitStart) :
    executedAll (frame b) s = executed (.edge 1#1) (inFrame b 10 (s.returning .nothing)) := by
  rw [frame, executedAll_frameWith hen hfsm, executed_parityBit hen hfsm]
  rfl

/-! ## The stop bit of a well-formed frame -/

theorem inFrame_accumulator : (inFrame b 10 s).accumulator = b := lowBits_eight

theorem inFrame_suppress : (inFrame b 10 s).suppress (inFrame b 10 s).accumulator = s.suppress b := by
  rw [inFrame_accumulator]
  rfl

/-- What a received frame of `b` leaves in the framer, the history and the trace (40_framer.md R104, R105, R107). -/
structure FrameReceived (s : State) (b : Byte) (t : State) (e : Event) : Prop where
  enabled : t.edgeIrqEn = true
  state : t.fsmState = .awaitStart
  busy : t.busy = false
  trace : t.trace = s.trace ++ [e]
  value : e.value = some b
  pushed : ¬ (b = s.lastAccepted ∧ b = s.secondLastAccepted) →
    (e.tag = .accepted ∨ e.tag = .queueFull) ∧ t.lastAccepted = b ∧ t.secondLastAccepted = s.lastAccepted
  suppressed : b = s.lastAccepted ∧ b = s.secondLastAccepted →
    e.tag = .suppressed ∧ t.lastAccepted = s.lastAccepted ∧ t.secondLastAccepted = s.secondLastAccepted

theorem frameReceived_stop (hen : s.edgeIrqEn = true) :
    ∃ e, FrameReceived s b (executed (.edge 1#1) (inFrame b 10 s)) e := by
  have hfsm : (inFrame b 10 s).fsmState = .awaitStop := rfl
  rw [executed_edge_of_enabled (inFrame_enabled.trans hen)]
  cases hsup : s.suppress b with
  | true =>
    rw [framed_suppressed hfsm (inFrame_suppress.trans hsup), inFrame_accumulator]
    exact ⟨⟨.suppressed, some b⟩,
      { enabled := hen, state := rfl, busy := rfl, trace := rfl, value := rfl
        pushed := fun hkeep => absurd (suppress_iff.1 hsup) hkeep
        suppressed := fun _ => ⟨rfl, rfl, rfl⟩ }⟩
  | false =>
    have hkeep : ¬ (b = s.lastAccepted ∧ b = s.secondLastAccepted) := fun h => by simp [suppress_iff.2 h] at hsup
    cases hf : (inFrame b 10 s).full with
    | true =>
      rw [framed_queueFull hfsm (inFrame_suppress.trans hsup) hf, inFrame_accumulator]
      exact ⟨⟨.queueFull, some b⟩,
        { enabled := hen, state := rfl, busy := rfl, trace := rfl, value := rfl
          pushed := fun _ => ⟨.inr rfl, lowBits_eight, rfl⟩
          suppressed := fun h => absurd h hkeep }⟩
    | false =>
      rw [framed_accepted hfsm (inFrame_suppress.trans hsup) hf, inFrame_accumulator]
      exact ⟨⟨.accepted, some b⟩,
        { enabled := hen, state := rfl, busy := rfl, trace := rfl, value := rfl
          pushed := fun _ => ⟨.inl rfl, lowBits_eight, rfl⟩
          suppressed := fun h => absurd h hkeep }⟩

/-! ## Consumer operations before, between and after the edges -/

/-- Two states that agree in what the framer keeps between frames: the edge interrupt, the state, the history and the
trace. -/
structure SameFramer (u s : State) : Prop where
  enabled : u.edgeIrqEn = s.edgeIrqEn
  state : u.fsmState = s.fsmState
  lastAccepted : u.lastAccepted = s.lastAccepted
  secondLastAccepted : u.secondLastAccepted = s.secondLastAccepted
  trace : u.trace = s.trace

theorem FrameReceived.of_sameFramer (h : FrameReceived u b t e) (hu : SameFramer u s) : FrameReceived s b t e where
  enabled := h.enabled
  state := h.state
  busy := h.busy
  trace := hu.trace ▸ h.trace
  value := h.value
  pushed := hu.lastAccepted ▸ hu.secondLastAccepted ▸ h.pushed
  suppressed := hu.lastAccepted ▸ hu.secondLastAccepted ▸ h.suppressed

/-- A consumer operation leaves what a received frame has left (20_memory.md section 4). -/
theorem FrameReceived.consumer (h : FrameReceived s b t e) (hi : issuer i = .consumer) (hne : i ≠ .init) :
    FrameReceived s b (executed i t) e := by
  rw [executed_consumer_frame hi hne]
  exact ⟨h.enabled, h.state, h.busy, h.trace, h.value, h.pushed, h.suppressed⟩

theorem FrameReceived.consumers (h : FrameReceived s b t e) (hedges : ops.filter isEdge = [])
    (hops : ∀ i ∈ ops, isEdge i = false → issuer i = .consumer ∧ i ≠ .init) :
    FrameReceived s b (executedAll ops t) e := by
  induction ops generalizing t with
  | nil => exact h
  | cons i ops ih =>
    obtain ⟨hi, hrest⟩ := List.forall_mem_cons.1 hops
    have hedge : isEdge i = false := by
      cases hedge : isEdge i with
      | true => simp [hedge] at hedges
      | false => rfl
    rw [List.filter_cons_of_neg (by simp [hedge])] at hedges
    exact ih (h.consumer (hi hedge).1 (hi hedge).2) hedges hrest

/-- A state in a frame whose edges began in `s`, but for what the consumer has done since. -/
def AfterEdges (b : Byte) (n : Nat) (s t : State) : Prop := ∃ u, t = inFrame b n u ∧ SameFramer u s

/-- A consumer operation commutes with the edges before it. -/
theorem AfterEdges.consumer (h : AfterEdges b n s t) (hi : issuer i = .consumer) (hne : i ≠ .init) :
    AfterEdges b n s (executed i t) := by
  obtain ⟨u, rfl, hu⟩ := h
  refine ⟨(executed i u).returning (executed i (inFrame b n u)).result, ?commute, ?same⟩
  case commute =>
    rw [sameConsumer_inFrame.executed_eq hi hne, executed_consumer_frame (s := u) hi hne]
    exact (inFrame_consumer ..).symm
  case same =>
    rw [executed_consumer_frame (s := u) hi hne]
    exact ⟨hu.enabled, hu.state, hu.lastAccepted, hu.secondLastAccepted, hu.trace⟩

/-- An edge before the stop bit. -/
theorem AfterEdges.edge (h : AfterEdges b n s t) (hen : s.edgeIrqEn = true) (hfsm : s.fsmState = .awaitStart)
    (hn : n < 10) : AfterEdges b (n + 1) s (executed (.edge (frameBit b n)) t) := by
  obtain ⟨u, rfl, hu⟩ := h
  exact ⟨u.returning .nothing, executed_frameBit (hu.enabled.trans hen) (hu.state.trans hfsm) hn,
    ⟨hu.enabled, hu.state, hu.lastAccepted, hu.secondLastAccepted, hu.trace⟩⟩

/-- The stop bit. -/
theorem AfterEdges.stop (h : AfterEdges b 10 s t) (hen : s.edgeIrqEn = true) :
    ∃ e, FrameReceived s b (executed (.edge (frameBit b 10)) t) e := by
  obtain ⟨u, rfl, hu⟩ := h
  obtain ⟨e, he⟩ := frameReceived_stop (b := b) (hu.enabled.trans hen)
  exact ⟨e, he.of_sameFramer hu⟩

/-- The rest of a frame, with consumer operations among its edges, completes it. -/
theorem AfterEdges.received (h : AfterEdges b n s t) (hen : s.edgeIrqEn = true) (hfsm : s.fsmState = .awaitStart)
    (hn : n < 11) (hedges : ops.filter isEdge = (frame b).drop n)
    (hops : ∀ i ∈ ops, isEdge i = false → issuer i = .consumer ∧ i ≠ .init) :
    ∃ e, FrameReceived s b (executedAll ops t) e := by
  induction ops generalizing n t with
  | nil =>
    rw [drop_frame hn] at hedges
    cases hedges
  | cons i ops ih =>
    obtain ⟨hi, hrest⟩ := List.forall_mem_cons.1 hops
    cases hedge : isEdge i with
    | false =>
      rw [List.filter_cons_of_neg (by simp [hedge])] at hedges
      exact ih (h.consumer (hi hedge).1 (hi hedge).2) hn hedges hrest
    | true =>
      rw [List.filter_cons_of_pos hedge, drop_frame hn] at hedges
      obtain ⟨rfl, htail⟩ := List.cons.inj hedges
      by_cases hlast : n < 10
      · exact ih (h.edge hen hfsm hlast) (by omega) htail hrest
      · obtain rfl : n = 10 := by omega
        obtain ⟨e, he⟩ := h.stop hen
        exact ⟨e, he.consumers htail hrest⟩

/-- The frame law for the state after a run of a frame's edges and consumer operations. -/
theorem exists_frameReceived (hen : s.edgeIrqEn = true) (hfsm : s.fsmState = .awaitStart)
    (hedges : ops.filter isEdge = frame b)
    (hops : ∀ i ∈ ops, isEdge i = false → issuer i = .consumer ∧ i ≠ .init) :
    ∃ e, FrameReceived s b (executedAll ops s) e :=
  AfterEdges.received (n := 0) ⟨s, rfl, rfl, rfl, rfl, rfl, rfl⟩ hen hfsm (by omega) hedges hops

/-- Settles O18: the run completes in the state of `exists_frameReceived`. -/
theorem wellFormedFrameIsReceivedWhateverTheConsumerDoes :
    Obligations.WellFormedFrameIsReceivedWhateverTheConsumerDoes := by
  intro s b ops h hen hfsm hedges hops
  obtain ⟨log, hrun, _⟩ := h.runIssued_eq ops
  obtain ⟨e, he⟩ := exists_frameReceived hen hfsm hedges hops
  exact ⟨log, _, e, hrun, he.state, he.busy, he.trace, he.value, he.pushed, he.suppressed⟩

/-! ## Frames alone -/

theorem filter_frame (b : Byte) : (frame b).filter isEdge = frame b :=
  List.filter_eq_self.2 fun i hi => by
    rw [frame_eq, firstEdges, List.mem_map] at hi
    obtain ⟨k, _, rfl⟩ := hi
    rfl

theorem frame_frameReceived (v : Byte) (hen : s.edgeIrqEn = true) (hfsm : s.fsmState = .awaitStart) :
    ∃ e, FrameReceived s v (executedAll (frame v) s) e :=
  exists_frameReceived hen hfsm (filter_frame v) fun i hi hedge => by
    rw [← filter_frame, List.mem_filter] at hi
    simp [hi.2] at hedge

/-- The EDGE of the stop bit hands the byte to PUSH unless it is suppressed. -/
theorem inFrame_accepts (hen : s.edgeIrqEn = true) : (inFrame b 10 s).accepts 1#1 = true ↔ s.suppress b = false := by
  rw [accepts_iff, inFrame_suppress]
  exact ⟨fun h => h.2.2.2, fun h => ⟨hen, rfl, rfl, h⟩⟩

theorem frame_unread (h : Inv s) (hen : s.edgeIrqEn = true) (hfsm : s.fsmState = .awaitStart) :
    (executedAll (frame b) s).unread =
      if (b = s.lastAccepted ∧ b = s.secondLastAccepted) ∨ s.unread.length = s.cfg.capacity then s.unread
      else s.unread ++ [b] := by
  have hqueue := sameQueue_executed (.edge 1#1) (inFrame b 10 (s.returning .nothing))
  have haccepts : (inFrame b 10 (s.returning .nothing)).accepts 1#1 = true ↔ s.suppress b = false := inFrame_accepts hen
  rw [executedAll_frame hen hfsm, hqueue.unread_eq]
  cases hsup : s.suppress b with
  | true =>
    rw [queueAfter_edge_of_not_accepts (by simp [haccepts, hsup]), if_pos (.inl (suppress_iff.1 hsup))]
    rfl
  | false =>
    rw [queueAfter_edge_of_accepts (haccepts.2 hsup), inFrame_accumulator]
    cases hf : s.full with
    | true =>
      rw [appended_unread_of_full (s := inFrame b 10 (s.returning .nothing)) hf,
        if_pos (.inr ((full_iff_unread h.block.queue).1 hf))]
      rfl
    | false =>
      have hroom : ¬ ((b = s.lastAccepted ∧ b = s.secondLastAccepted) ∨ s.unread.length = s.cfg.capacity) := by
        rw [← suppress_iff, ← full_iff_unread h.block.queue, hsup, hf]
        simp
      rw [appended_unread_of_not_full (s := inFrame b 10 (s.returning .nothing))
        (h.block.queue.congr rfl rfl rfl rfl) (h.block.storage.congr rfl rfl) hf, if_neg hroom]
      rfl

/-- Settles O19: the unread bytes by `frame_unread`, the rest by the frame of the stop bit's EDGE. -/
theorem wellFormedFrameQueuesItsByte : Obligations.WellFormedFrameQueuesItsByte := by
  intro s b h hen hfsm
  obtain ⟨log, hrun, _⟩ := h.runIssued_eq (frame b)
  refine ⟨log, _, hrun, frame_unread h hen hfsm, ?_⟩
  rw [executedAll_frame hen hfsm, executed_edge_frame]
  exact ⟨rfl, rfl, rfl, rfl, rfl⟩

/-! ## Malformed frames -/

theorem parityHolds_complement :
    (dataReceived b 8 s).parityHolds (1 - oddParityBit b) = false := by
  have hright := popcount_add_oddParityBit b
  rw [← Bool.not_eq_true, parityHolds_dataReceived]
  generalize oddParityBit b = p at hright ⊢
  rcases bit_eq_zero_or_one p with rfl | rfl
  · simp at hright ⊢
    omega
  · simp at hright ⊢
    omega

theorem dataReceived_accumulator : (dataReceived b 8 s).accumulator = b := lowBits_eight

theorem busyAfterParityFail_dataReceived :
    (dataReceived b 8 s).busyAfterParityFail = decide (s.cfg.busyParityPolicy = .latch) := by
  have hpolicy : (dataReceived b 8 s).cfg = s.cfg := rfl
  have hbusy : (dataReceived b 8 s).busy = true := rfl
  rw [State.busyAfterParityFail, hpolicy, hbusy]
  cases s.cfg.busyParityPolicy <;> rfl

theorem executed_edge_of_framed (he : s.edgeIrqEn = true) (h : framed d s = t) :
    executed (.edge d) s = t.returning .nothing := by
  rw [executed_edge_of_enabled he, h]

/-- The state `s` with a frame of `b` dropped, the event recorded and `busy` as given (40_framer.md R103, R104). -/
def frameDropped (b : Byte) (busy : Bool) (tag : EventTag) (s : State) : State :=
  { dataReceived b 8 s with
    fsmState := .awaitStart, accumulator := b, busy := busy, trace := s.trace ++ [⟨tag, some b⟩], result := .nothing }

theorem executed_parityFail (hen : s.edgeIrqEn = true) :
    executed (.edge (1 - oddParityBit b)) (dataReceived b 8 (s.returning .nothing)) =
      frameDropped b (decide (s.cfg.busyParityPolicy = .latch)) .parityFail s := by
  have hframed := framed_parityFail (s := dataReceived b 8 (s.returning .nothing)) rfl
    (parityHolds_complement (b := b))
  have hen' : (dataReceived b 8 (s.returning .nothing)).edgeIrqEn = true := hen
  rw [executed_edge_of_framed hen' hframed, busyAfterParityFail_dataReceived, dataReceived_accumulator]
  rfl

theorem executed_stopFail (hen : s.edgeIrqEn = true) :
    executed (.edge 0#1) (inFrame b 10 s) = frameDropped b false .stopFail s := by
  have hframed := framed_stopFail (s := inFrame b 10 s) rfl
  rw [executed_edge_of_framed (inFrame_enabled.trans hen) hframed, inFrame_accumulator]
  rfl

/-- A frame with the wrong parity bit is dropped there, and its stop bit is noise (40_framer.md section 3). -/
theorem executedAll_frameBadpar (hen : s.edgeIrqEn = true) (hfsm : s.fsmState = .awaitStart) :
    executedAll (frameBadpar b) s =
      (frameDropped b (decide (s.cfg.busyParityPolicy = .latch)) .parityFail s).record .noise none := by
  rw [show frameBadpar b = frameWith b (1 - oddParityBit b) 1#1 from rfl, executedAll_frameWith hen hfsm,
    executed_parityFail hen, executed_edge_of_framed (s := frameDropped b _ .parityFail s) hen (framed_noise rfl)]
  rfl

/-- A frame with a stop bit of 0 is dropped at the stop bit (40_framer.md section 3). -/
theorem executedAll_frameBadstop (hen : s.edgeIrqEn = true) (hfsm : s.fsmState = .awaitStart) :
    executedAll (frameBadstop b) s = frameDropped b false .stopFail s := by
  rw [show frameBadstop b = frameWith b (oddParityBit b) 0#1 from rfl, executedAll_frameWith hen hfsm,
    executed_parityBit hen hfsm, executed_stopFail (s := s.returning .nothing) hen]
  rfl

/-- Settles O20: the two states name every register, and neither touches the queue or the history. -/
theorem malformedFramesQueueNothing : Obligations.MalformedFramesQueueNothing := by
  intro s b h hen hfsm
  obtain ⟨log, hrun, _⟩ := h.runIssued_eq (frameBadpar b)
  obtain ⟨log', hrun', _⟩ := h.runIssued_eq (frameBadstop b)
  rw [executedAll_frameBadpar hen hfsm] at hrun
  rw [executedAll_frameBadstop hen hfsm] at hrun'
  exact ⟨⟨log, _, hrun, rfl, rfl, List.append_assoc .., rfl, rfl, rfl, rfl⟩,
    ⟨log', _, hrun', rfl, rfl, rfl, rfl, rfl, rfl, rfl⟩⟩

/-! ## Repeated frames -/

/-- How many more frames of `v` the history lets through to PUSH (40_framer.md R105, R108). -/
def handOvers (s : State) (v : Byte) : Nat :=
  if s.lastAccepted = v then if s.secondLastAccepted = v then 0 else 1 else 2

/-- A frame of `v` is handed to PUSH while `handOvers` is not 0, and takes one of them. -/
theorem FrameReceived.isPush_iff {v : Byte} (h : FrameReceived s v t e) :
    (e.isPush = true ∧ handOvers s v = handOvers t v + 1) ∨
    (e.isPush = false ∧ handOvers s v = 0 ∧ handOvers t v = 0) := by
  by_cases hsup : v = s.lastAccepted ∧ v = s.secondLastAccepted
  · obtain ⟨htag, hlast, hsecond⟩ := h.suppressed hsup
    obtain ⟨h₁, h₂⟩ := hsup
    exact .inr ⟨by rw [Event.isPush, htag]; rfl, by simp [handOvers, ← h₁, ← h₂], by
      simp [handOvers, hlast, hsecond, ← h₁, ← h₂]⟩
  · obtain ⟨htag, hlast, hsecond⟩ := h.pushed hsup
    have hpush : e.isPush = true := by rcases htag with htag | htag <;> rw [Event.isPush, htag] <;> rfl
    refine .inl ⟨hpush, ?_⟩
    by_cases h₁ : s.lastAccepted = v
    · have h₂ : s.secondLastAccepted ≠ v := fun h₂ => hsup ⟨h₁.symm, h₂.symm⟩
      simp [handOvers, hlast, hsecond, h₁, h₂]
    · simp [handOvers, hlast, hsecond, h₁]

/-- Of `k` frames of `v` as many are handed to PUSH as `handOvers` allows. -/
theorem exists_events_of_repeats (v : Byte) (k : Nat) (hen : s.edgeIrqEn = true) (hfsm : s.fsmState = .awaitStart) :
    ∃ es, (executedAll (List.replicate k (frame v)).flatten s).trace = s.trace ++ es ∧ es.length = k ∧
      (es.filter Event.isPush).length = min k (handOvers s v) := by
  induction k generalizing s with
  | zero => exact ⟨[], (List.append_nil _).symm, rfl, by simp⟩
  | succ k ih =>
    obtain ⟨e, he⟩ := frame_frameReceived v hen hfsm
    obtain ⟨es, htrace, hlen, hpushes⟩ := ih he.enabled he.state
    rw [List.replicate_succ, List.flatten_cons, executedAll_append]
    refine ⟨e :: es, by rw [htrace, he.trace, List.append_assoc, List.singleton_append],
      by rw [List.length_cons, hlen], ?_⟩
    rcases he.isPush_iff with ⟨hpush, hcount⟩ | ⟨hkept, hnone, hnone'⟩
    · rw [List.filter_cons_of_pos hpush, List.length_cons, hpushes, hcount]
      omega
    · rw [List.filter_cons_of_neg (by simp [hkept]), hpushes, hnone, hnone', Nat.min_zero, Nat.min_zero]

/-- Settles O21: `handOvers` is 2, 1 or 0 by the history. -/
theorem atMostTwoRepeatsAreHandedToPush : Obligations.AtMostTwoRepeatsAreHandedToPush := by
  intro s v k h hen hfsm
  obtain ⟨log, hrun, _⟩ := h.runIssued_eq (List.replicate k (frame v)).flatten
  obtain ⟨es, htrace, hlen, hpushes⟩ := exists_events_of_repeats v k hen hfsm
  refine ⟨log, _, es, hrun, htrace, hlen, fun h₁ => ?two, fun h₁ h₂ => ?one, fun h₁ h₂ => ?none⟩
  case two => rw [hpushes, handOvers, if_neg h₁]
  case one => rw [hpushes, handOvers, if_pos h₁, if_neg h₂]
  case none => rw [← List.length_eq_zero_iff, hpushes, handOvers, if_pos h₁, if_pos h₂, Nat.min_zero]

end Sys2Proof.Machine
